-- ==== Sys2Proof/Word.lean ====
section
/-! DEFINITION. The widths of the block: a byte, a nibble for the opcode, the 64-bit length (spec 00_scope.md R6, R7).
Every value is unsigned; bit 0 is the least significant bit (R7). -/

namespace Sys2Proof

/-- The input unit, `BYTE_BITS` = 8 (R6, R70). -/
abbrev Byte := BitVec 8

/-- The opcode, `OPCODE_BITS` = 4 (R6, R22). -/
abbrev Opcode := BitVec 4

/-- A payload length, `LENGTH_BITS` = 64, unsigned (R6, R25, R107). -/
abbrev Len := BitVec 64

/-- The length indicator: the low 7 bits of the second frame byte (R10, R74). -/
abbrev Indicator := BitVec 7

end Sys2Proof
end

