-- ==== Sys2Proof/Config.lean ====
section
/-! DEFINITION. The parameters of spec 00_scope.md R6 and the free values of the block's outputs (10_state.md R35,
93_implementation_defined.md I6). The literals are taken as printed (log 17). -/

namespace Sys2Proof.Config

/-- `SHORT_LEN_MAX`: the largest length the 7-bit field holds itself (R6). -/
abbrev shortLenMax : Indicator := 125

/-- `EXT16_CODE`: the indicator that announces a 16-bit length (R6). -/
abbrev ext16Code : Indicator := 126

/-- `EXT64_CODE`: the indicator that announces a 64-bit length (R6). -/
abbrev ext64Code : Indicator := 127

/-- `PAYLOAD_CAPACITY` (R6, D17): OPEN, a natural number (`some n`) or unbounded (`none`). The spec makes it an argument
of the model; a step's only argument is the state, so `State.capacity` carries it and no step changes it (log 3). -/
abbrev Capacity := Option Nat

/-! The data outputs of a cycle whose strobe is 0 "hold no defined value" (R35; I6: any value). Each is a FREE VALUE:
an opaque function of the number of edges so far (`State.tick`), of which no proof can know a value (log 4). -/

/-- Free value of `frm_opcode` while `frm_valid` = 0 (R35, I6; log 4). -/
opaque freeFrmOpcode : Nat → Opcode

/-- Free value of `frm_fin` while `frm_valid` = 0 (R35, I6; log 4). -/
opaque freeFrmFin : Nat → Bool

/-- Free value of `frm_masked` while `frm_valid` = 0 (R35, I6; log 4). -/
opaque freeFrmMasked : Nat → Bool

/-- Free value of `frm_length` while `frm_valid` = 0 (R35, I6; log 4). -/
opaque freeFrmLength : Nat → Len

/-- Free value of `pay_data` while `pay_valid` = 0 (R35, I6; log 4). -/
opaque freePayData : Nat → Byte

/-- Free value of `pay_index` while `pay_valid` = 0 (R35, I6; log 4). -/
opaque freePayIndex : Nat → Len

end Sys2Proof.Config
end

