-- ==== Sys2Proof/Syntax.lean ====
section
/-! DEFINITION. The control states (spec 10_state.md R21), the input of one clock edge (R35) and the ten operations of
spec/opcode_table.json with their operands (30_encoding.md R73, R74, R81). -/

namespace Sys2Proof

/-- The control state `st`: "each value names the state the next input byte is consumed in" (R21). Six constructors, so
that the unused codes 6 and 7 cannot be held, as R36 asks of a model (log 7). -/
inductive Ctl where
  | awaitFirst
  | awaitLen
  | awaitExt16
  | awaitExt64
  | awaitMask
  | awaitBody
deriving DecidableEq, Repr

/-- What the block is given at one rising edge of `clk`: its input ports (R35), and whether a state upset has left the
code 6 or 7 in the `st` register before this edge, which a realisation must recover from (R36; log 7). -/
structure Edge where
  /-- `rst`: synchronous reset, active high (R35, R180). -/
  rst : Bool
  /-- `in_valid`: a byte is offered on this edge (R35). -/
  inValid : Bool
  /-- `in_byte`: the byte offered (R35). -/
  inByte : Byte
  /-- The environment has upset `st` to 6 or 7 before this edge (R36). No port: an event from outside (log 7). -/
  stUpset : Bool
deriving DecidableEq, Repr

/-- An edge that offers the byte `b` (R35). -/
abbrev Edge.byte (b : Byte) : Edge := { rst := false, inValid := true, inByte := b, stUpset := false }

/-- An edge that performs no step: `rst` = 0 and `in_valid` = 0 (R185). -/
abbrev Edge.idle : Edge := { rst := false, inValid := false, inByte := 0, stUpset := false }

/-- An edge with `rst` = 1 and no byte (R180). -/
abbrev Edge.reset : Edge := { rst := true, inValid := false, inByte := 0, stUpset := false }

/-- The operations, one constructor per row of spec/opcode_table.json (R81). -/
inductive Instr where
  /-- FIRST, `FRRROOOO` (R101). The bits `rsv` are ignored by the meaning and kept so that no bit of the byte is lost
  (R80; log 12). -/
  | first (fin : Bool) (rsv : BitVec 3) (opcode : Opcode)
  /-- LEN7, `MLLLLLLL` with the indicator at most 125 (R102). -/
  | len7 (mask : Bool) (indicator : Indicator)
  /-- LEN16, `M1111110` (R103). -/
  | len16 (mask : Bool)
  /-- LEN64, `M1111111` (R104). -/
  | len64 (mask : Bool)
  /-- EXT16, `DDDDDDDD`: the next byte of a 16-bit length (R105). -/
  | ext16 (b : Byte)
  /-- EXT64, `DDDDDDDD`: the next byte of a 64-bit length (R106). -/
  | ext64 (b : Byte)
  /-- MASKKEY, `KKKKKKKK`: the next key byte (R120). -/
  | maskKey (b : Byte)
  /-- BODY_MASKED, `PPPPPPPP`: a masked payload byte (R121). -/
  | bodyMasked (b : Byte)
  /-- BODY_UNMASKED, `PPPPPPPP`: a plain payload byte (R122). -/
  | bodyUnmasked (b : Byte)
  /-- RESET, `rst` = 1 (R180). -/
  | reset
deriving DecidableEq, Repr

end Sys2Proof
end

