-- ==== Sys2Proof/WellFormed.lean ====
section
/-! DEFINITION. Which terms of `Instr` are operations of the block: every operand may take every value of its width, but
for LEN7's indicator, which is 0 to 125 (spec 40_header.md R102; 30_encoding.md R81). -/

namespace Sys2Proof

/-- The well-formed operations. -/
def Instr.wf : Instr → Bool
  | .first _ _ _ => true
  | .len7 _ indicator => decide (indicator ≤ Config.shortLenMax)
  | .len16 _ => true
  | .len64 _ => true
  | .ext16 _ => true
  | .ext64 _ => true
  | .maskKey _ => true
  | .bodyMasked _ => true
  | .bodyUnmasked _ => true
  | .reset => true

end Sys2Proof
end

