-- ==== Sys2Proof/Decode.lean ====
section
/-! DEFINITION. The field extraction of spec 30_encoding.md R73 and R74, the operation decode of R81 (from the control
state, `masked` and the edge), and the encoder written from the same encodings (spec/opcode_table.json). Decoding is
total: no byte is illegal or reserved in any state (R80), so there is nothing to reject. -/

namespace Sys2Proof

/-! ### Fields of the first and of the second byte -/

/-- `fin_field = b[7]` (R73). -/
def finField (b : Byte) : Bool := b.getLsbD 7

/-- `b[6:4]`, which no rule reads (R73, R80). -/
def rsvField (b : Byte) : BitVec 3 := b.extractLsb' 4 3

/-- `opcode_field = b[3:0]` (R73). -/
def opcodeField (b : Byte) : Opcode := b.extractLsb' 0 4

/-- `mask_field = b[7]` (R74). -/
def maskField (b : Byte) : Bool := b.getLsbD 7

/-- `indicator = b[6:0]` (R74). -/
def indicatorField (b : Byte) : Indicator := b.extractLsb' 0 7

/-! ### The control state's code -/

/-- The numeric value of `st` (R21, D13). -/
def Ctl.code : Ctl → BitVec 3
  | .awaitFirst => 0
  | .awaitLen => 1
  | .awaitExt16 => 2
  | .awaitExt64 => 3
  | .awaitMask => 4
  | .awaitBody => 5

/-- The control state a 3-bit code names; 6 and 7 are unused (R21, R36). -/
def Ctl.ofCode (c : BitVec 3) : Option Ctl :=
  if c = 0 then some .awaitFirst
  else if c = 1 then some .awaitLen
  else if c = 2 then some .awaitExt16
  else if c = 3 then some .awaitExt64
  else if c = 4 then some .awaitMask
  else if c = 5 then some .awaitBody
  else none

/-! ### Decode -/

/-- The three operations of `AWAIT_LEN` (R81). A 7-bit indicator above 125 that is not 126 is 127, so the last arm is
LEN64 and nothing else ("the 7-bit field is exhaustively handled by the three branches", R80). -/
def decodeLengthByte (b : Byte) : Instr :=
  if indicatorField b ≤ Config.shortLenMax then .len7 (maskField b) (indicatorField b)
  else if indicatorField b = Config.ext16Code then .len16 (maskField b)
  else .len64 (maskField b)

/-- The operation a byte selects in a control state (R81). -/
def decodeByte (st : Ctl) (masked : Bool) (b : Byte) : Instr :=
  match st with
  | .awaitFirst => .first (finField b) (rsvField b) (opcodeField b)
  | .awaitLen => decodeLengthByte b
  | .awaitExt16 => .ext16 b
  | .awaitExt64 => .ext64 b
  | .awaitMask => .maskKey b
  | .awaitBody => if masked then .bodyMasked b else .bodyUnmasked b

/-- What one clock edge makes the block do. -/
inductive Action where
  /-- One operation of R81. -/
  | operation (i : Instr)
  /-- No step: every field is held (R185). -/
  | idle
  /-- The recovery from an unused `st` code (R36). -/
  | recover
deriving DecidableEq, Repr

/-- What an edge selects. `rst` has priority over everything else on the edge (R81, R164, R191); an unused `st` code is
recovered from without consuming the byte (R36; log 7); then a byte is fed if one is offered (R35). -/
def decode (st : Ctl) (masked : Bool) (e : Edge) : Action :=
  if e.rst then .operation .reset
  else if e.stUpset then .recover
  else if e.inValid then .operation (decodeByte st masked e.inByte)
  else .idle

/-! ### Encode -/

/-- The byte of an operation; RESET has none (spec/opcode_table.json, column `encoding`). -/
def encodeByte : Instr → Option Byte
  | .first fin rsv opcode => some (BitVec.ofBool fin ++ rsv ++ opcode)
  | .len7 mask indicator => some (BitVec.ofBool mask ++ indicator)
  | .len16 mask => some (BitVec.ofBool mask ++ Config.ext16Code)
  | .len64 mask => some (BitVec.ofBool mask ++ Config.ext64Code)
  | .ext16 b => some b
  | .ext64 b => some b
  | .maskKey b => some b
  | .bodyMasked b => some b
  | .bodyUnmasked b => some b
  | .reset => none

/-- The edge that asks for an operation: its byte offered, or `rst` = 1 for RESET (R35, R180). -/
def encode (i : Instr) : Edge :=
  match encodeByte i with
  | some b => Edge.byte b
  | none => Edge.reset

/-- The columns `state` and `condition` of spec/opcode_table.json: whether the control state `st` and the flag `masked`
let a byte select the operation (R81). RESET applies in any state. -/
def Instr.selectedIn (i : Instr) (st : Ctl) (masked : Bool) : Bool :=
  match i with
  | .first _ _ _ => decide (st = .awaitFirst)
  | .len7 _ _ => decide (st = .awaitLen)
  | .len16 _ => decide (st = .awaitLen)
  | .len64 _ => decide (st = .awaitLen)
  | .ext16 _ => decide (st = .awaitExt16)
  | .ext64 _ => decide (st = .awaitExt64)
  | .maskKey _ => decide (st = .awaitMask)
  | .bodyMasked _ => decide (st = .awaitBody) && masked
  | .bodyUnmasked _ => decide (st = .awaitBody) && !masked
  | .reset => true

/-! ### The opcode table's words -/

/-- The edge a table word stands for: no bits at all is RESET's row, whose encoding is `rst=1`; up to eight bits are one
byte; more bits are more than one operation (log 11). -/
def tableEdge (nbits w : Nat) : Option Edge :=
  if nbits = 0 then some Edge.reset
  else if nbits ≤ 8 then some (Edge.byte (BitVec.ofNat 8 w))
  else none

/-- The control state a table word is read in. The table's rows are told apart by `st` first, and a word alone does not
hold it; the rows a word CAN tell apart are those of `AWAIT_LEN` (R81; log 11). -/
def tableCtl : Ctl := .awaitLen

/-- The operation the decoder reads from a table word, in the control state `tableCtl` (log 11). -/
def decodeTableWord (nbits w : Nat) : Option Instr :=
  match tableEdge nbits w with
  | some e =>
    match decode tableCtl false e with
    | .operation i => some i
    | .idle => none
    | .recover => none
  | none => none

end Sys2Proof
end

