-- ==== Sys2Proof/Machine/State.lean ====
section
/-! DEFINITION. The state of one decoder instance: the fields of spec 10_state.md R20, the output registers of R35, the
events of R34, the parameter `PAYLOAD_CAPACITY` (00_scope.md R6), and the clock edges still to come. -/

namespace Sys2Proof.Machine

/-- The DecoderState: "exactly the fields below" (R20). -/
structure DecoderState where
  /-- `st`: the control state (R21). -/
  st : Ctl
  /-- `opcode` of the current frame (R22). -/
  opcode : Opcode
  /-- `fin` of the current frame (R23). -/
  fin : Bool
  /-- `masked`: whether the current frame's payload is masked (R24). -/
  masked : Bool
  /-- `length`: the payload length, or its partial value while extended bytes are collected (R25). -/
  length : Len
  /-- `maskKey[0..3]` (R26, R52). -/
  maskKey : Vector Byte 4
  /-- `key_cnt`: mask-key bytes captured so far (R27). -/
  keyCnt : BitVec 2
  /-- `ext_cnt`: extended-length bytes captured so far (R28). -/
  extCnt : BitVec 3
  /-- `payloadBuffer`: the payload bytes stored so far, unmasked (R29, R51). -/
  payloadBuffer : List Byte
deriving DecidableEq, Repr

/-- Every field at its reset value (R33). -/
def DecoderState.reset : DecoderState where
  st := .awaitFirst
  opcode := 0
  fin := false
  masked := false
  length := 0
  maskKey := #v[0, 0, 0, 0]
  keyCnt := 0
  extCnt := 0
  payloadBuffer := []

/-- The block's only architectural output, the event of one completed frame (R34). -/
structure DecodedFrame where
  opcode : Opcode
  fin : Bool
  masked : Bool
  length : Len
  payload : List Byte
deriving DecidableEq, Repr

/-- The output registers behind the output ports (R35). -/
structure Outputs where
  /-- `frm_valid`: DecodedFrame event pulse. -/
  frmValid : Bool
  /-- `frm_opcode`: the event's `opcode`. -/
  frmOpcode : Opcode
  /-- `frm_fin`: the event's `fin`. -/
  frmFin : Bool
  /-- `frm_masked`: the event's `masked`. -/
  frmMasked : Bool
  /-- `frm_length`: the event's `length`. -/
  frmLength : Len
  /-- `pay_valid`: a payload byte was stored by this step. -/
  payValid : Bool
  /-- `pay_data`: the stored (unmasked) payload byte. -/
  payData : Byte
  /-- `pay_index`: its position within the payload. -/
  payIndex : Len
deriving DecidableEq, Repr

/-- The output registers after reset: both strobes 0, "all other outputs 0" (R33; log 5). -/
def Outputs.reset : Outputs where
  frmValid := false
  frmOpcode := 0
  frmFin := false
  frmMasked := false
  frmLength := 0
  payValid := false
  payData := 0
  payIndex := 0

/-- One instance of the block, with what it has put out and what it will be given. -/
structure State where
  /-- The DecoderState (R20). -/
  dec : DecoderState
  /-- The output registers (R35). -/
  out : Outputs
  /-- The events emitted so far, oldest first: the observation of a run (R34, R186; log 8). -/
  events : List DecodedFrame
  /-- `PAYLOAD_CAPACITY` of this realisation (R6, R60; log 3). No step writes it. -/
  capacity : Config.Capacity
  /-- The model's own: the clock edges still to come, the next one first (R35; log 1). -/
  input : List Edge
  /-- The model's own: the edges so far, the counter the free output values are read at (log 4). -/
  tick : Nat
deriving DecidableEq, Repr

/-- Why the block stops with a fault: never. "The block raises no exception" (R160), and a model whose `st` has six
constructors omits `fault(IllegalState)` (R162; log 15). -/
inductive Fault where
deriving DecidableEq, Repr

/-- Why a step has no meaning. -/
inductive Refusal where
  /-- Raised by `exec`'s arm of an operation that has no meaning yet. Safe: nothing can be proved of such a step. -/
  | notModelled (mnemonic : String)
  /-- Raised by `AfterLength()` alone, in LEN7, EXT16 and EXT64, when the capacity is finite and `length` exceeds it
  (R60, R100, R162). Safe: the spec gives such a frame no meaning, and the run has no observation (R186; log 13). -/
  | payloadExceedsCapacity
deriving DecidableEq, Repr

/-- The outcome of a step. -/
abbrev Result := Host.Outcome State Fault Refusal

/-- The machine right after RESET (R33, R180, R181): nothing emitted, no edge listed; the capacity is unbounded
(DESIGN CHOICE, log 3) and the counter of the free values is 0 (DESIGN CHOICE, log 4). -/
def State.reset : State where
  dec := DecoderState.reset
  out := Outputs.reset
  events := []
  capacity := none
  input := []
  tick := 0

end Sys2Proof.Machine
end

