-- ==== Sys2Proof/Machine/Flags.lean ====
section
/-! DEFINITION. The two flags of the block, `fin` and `masked` (spec 10_state.md R23, R24, R37). No operation sets one as
a side effect of arithmetic (R37): FIRST writes `fin` (40_header.md R101), the length byte writes `masked` (R102 to R104),
and per-frame clear and RESET clear both (41_payload.md R123, 70_reset_and_hazards.md R180). -/

namespace Sys2Proof.Machine

/-- `fin <- v` (R101). -/
def setFin (v : Bool) (s : State) : State := { s with dec := { s.dec with fin := v } }

/-- `masked <- v` (R102 to R104). -/
def setMasked (v : Bool) (s : State) : State := { s with dec := { s.dec with masked := v } }

end Sys2Proof.Machine
end

