-- ==== Sys2Proof/Machine/Operands.lean ====
section
/-! DEFINITION. What the operations compute from their operands: a 7-bit length (spec 30_encoding.md R75), one more byte
of a big-endian length (40_header.md R105, R106), the key index and the unmasking XOR (41_payload.md R121, R126), the
position (10_state.md R20) and the capacity test (40_header.md R100). -/

namespace Sys2Proof.Machine

/-- `zext_64(indicator)` (R75, R102). -/
def shortLength (indicator : Indicator) : Len := indicator.setWidth 64

/-- `(length << 8) | zext_64(b)` (R105, R106). -/
def shiftInByte (length : Len) (b : Byte) : Len := (length <<< 8) ||| b.setWidth 64

/-- The key slot of the body byte at position `p`: `p % 4`, which equals `p[1:0]` (R52, R121, R126). -/
def keyIndex (p : Nat) : BitVec 2 := BitVec.ofNat 2 p

/-- `b ^ k` (R121). -/
def unmaskByte (b k : Byte) : Byte := b ^^^ k

/-- `pos`, "defined as `len(payloadBuffer)`" (R20; log 9). -/
def DecoderState.pos (d : DecoderState) : Nat := d.payloadBuffer.length

/-- Whether a frame of this length is within the capacity: the negation of the guard of `refuse` (R100). -/
def fits (capacity : Config.Capacity) (length : Len) : Bool :=
  match capacity with
  | none => true
  | some n => decide (length.toNat ≤ n)

end Sys2Proof.Machine
end

