-- ==== Sys2Proof/Machine/Ops.lean ====
section
/-! DEFINITION. The shared operations: the pseudocode primitives of spec 00_scope.md R8, the access primitives of the two
stores (20_memory.md R51, R52), the dispatch `AfterLength()` (40_header.md R100), the completion `Complete()`
(41_payload.md R123), and what a clock edge does to the outputs (10_state.md R35). The block takes no exception and has
no return from one (60_exceptions.md R160, R165), so there is no such operation here. -/

namespace Sys2Proof.Machine

/-! ### Field writes (`f <- v`, `st <- S`, R8) -/

/-- `st <- c`. -/
def goTo (c : Ctl) (s : State) : State := { s with dec := { s.dec with st := c } }

/-- `opcode <- v` (R101). -/
def setOpcode (v : Opcode) (s : State) : State := { s with dec := { s.dec with opcode := v } }

/-- `length <- v` (R102 to R106). -/
def setLength (v : Len) (s : State) : State := { s with dec := { s.dec with length := v } }

/-- `key_cnt <- v` (R100, R120). -/
def setKeyCnt (v : BitVec 2) (s : State) : State := { s with dec := { s.dec with keyCnt := v } }

/-- `ext_cnt <- v` (R103 to R106). -/
def setExtCnt (v : BitVec 3) (s : State) : State := { s with dec := { s.dec with extCnt := v } }

/-! ### The mask-key store -/

/-- `KeyWrite(i, v)` (R52). -/
def keyWrite (i : BitVec 2) (v : Byte) (s : State) : State :=
  { s with dec := { s.dec with maskKey := s.dec.maskKey.set i.toNat v } }

/-- `KeyRead(i)` (R52). -/
def keyRead (i : BitVec 2) (s : State) : Byte := s.dec.maskKey[i.toNat]

/-! ### The payload buffer -/

/-- The byte at index `a` of the payload buffer, if the buffer holds one there (R50, R51). -/
def readByte (s : State) (a : Nat) : Option Byte := s.dec.payloadBuffer[a]?

/-- `BufAppend(v)` (R51), which also drives `pay_valid`, `pay_data` and `pay_index` (R35). -/
def bufAppend (v : Byte) (s : State) : State :=
  { s with
    dec := { s.dec with payloadBuffer := s.dec.payloadBuffer ++ [v] }
    out := { s.out with payValid := true, payData := v, payIndex := BitVec.ofNat 64 s.dec.pos } }

/-- The source's invariant of the payload buffer, `0 <= len(payloadBuffer) <= length` (R29). A sequence of bytes has one
form only, so this is all that the well-formedness of the block's storage asks (log 14). -/
def Memory.wf (d : DecoderState) : Bool := decide (d.pos ≤ d.length.toNat)

/-! ### Output and completion -/

/-- `emit(F)` (R8, R34), which also drives the `frm_*` outputs (R35). -/
def emit (f : DecodedFrame) (s : State) : State :=
  { s with
    events := s.events ++ [f]
    out := { s.out with frmValid := true, frmOpcode := f.opcode, frmFin := f.fin, frmMasked := f.masked,
                        frmLength := f.length } }

/-- The event `Complete()` emits (R34, R123). -/
def DecoderState.event (d : DecoderState) : DecodedFrame where
  opcode := d.opcode
  fin := d.fin
  masked := d.masked
  length := d.length
  payload := d.payloadBuffer

/-- Every field of R20 to its reset value: per-frame clear (R123) and the field part of RESET (R180). -/
def clearFields (s : State) : State := { s with dec := DecoderState.reset }

/-- `Complete()` (R123). -/
def complete (s : State) : State := clearFields (emit s.dec.event s)

/-- `AfterLength()` (R100). -/
def afterLength (s : State) : Result :=
  if fits s.capacity s.dec.length then
    if s.dec.masked then .next (goTo .awaitMask (setKeyCnt 0 s))
    else if s.dec.length = 0 then .next (complete s)
    else .next (goTo .awaitBody s)
  else .refused .payloadExceedsCapacity

/-- The end of a body step: `if p + 1 = length: Complete()`, where `p` is the position before the append (R121, R122). -/
def finishBody (p : Nat) (s : State) : State :=
  if p + 1 = s.dec.length.toNat then complete s else s

/-! ### A clock edge -/

/-- The outputs after an edge that neither emits nor stores: both strobes 0 and every data output free (R35, I6;
log 4). -/
def idleOutputs (tick : Nat) : Outputs where
  frmValid := false
  frmOpcode := Config.freeFrmOpcode tick
  frmFin := Config.freeFrmFin tick
  frmMasked := Config.freeFrmMasked tick
  frmLength := Config.freeFrmLength tick
  payValid := false
  payData := Config.freePayData tick
  payIndex := Config.freePayIndex tick

/-- The part of every edge that comes before the operation's own effect: the edge is taken from the input, and the output
registers are those of a step that neither emits nor stores, until the operation says otherwise (R35, R188). -/
def beginEdge (s : State) : State :=
  { s with input := s.input.tail, tick := s.tick + 1, out := idleOutputs s.tick }

/-- The recovery of a realisation that finds `st` = 6 or 7: every field to its reset value, nothing emitted (R36;
log 7). -/
def recover (s : State) : State := clearFields s

end Sys2Proof.Machine
end

