-- ==== Sys2Proof/Machine/Header.lean ====
section
/-! DEFINITION. The header operations FIRST, LEN7, LEN16, LEN64, EXT16 and EXT64 (spec 40_header.md). -/

namespace Sys2Proof.Machine

/-- FIRST (R101). The bits `rsv` are ignored (R80). -/
def execFirst (fin : Bool) (_rsv : BitVec 3) (opcode : Opcode) (s : State) : Result :=
  .next (goTo .awaitLen (setFin fin (setOpcode opcode s)))

/-- LEN7 (R102). -/
def execLen7 (mask : Bool) (indicator : Indicator) (s : State) : Result :=
  afterLength (setLength (shortLength indicator) (setMasked mask s))

/-- The common part of LEN16 and LEN64: the length field follows, in the control state `c` (R103, R104). -/
def awaitExtended (c : Ctl) (mask : Bool) (s : State) : State :=
  goTo c (setExtCnt 0 (setLength 0 (setMasked mask s)))

/-- LEN16 (R103). -/
def execLen16 (mask : Bool) (s : State) : Result := .next (awaitExtended .awaitExt16 mask s)

/-- LEN64 (R104). -/
def execLen64 (mask : Bool) (s : State) : Result := .next (awaitExtended .awaitExt64 mask s)

/-- The common part of EXT16 and EXT64: one more byte of the length, and the end of the field when `ext_cnt` is `last`
(R105, R106). -/
def collectLength (last : BitVec 3) (b : Byte) (s : State) : Result :=
  if s.dec.extCnt = last then afterLength (setExtCnt 0 (setLength (shiftInByte s.dec.length b) s))
  else .next (setExtCnt (s.dec.extCnt + 1) (setLength (shiftInByte s.dec.length b) s))

/-- EXT16: the second byte is the last (R105). -/
def execExt16 (b : Byte) (s : State) : Result := collectLength 1 b s

/-- EXT64: the eighth byte is the last (R106). -/
def execExt64 (b : Byte) (s : State) : Result := collectLength 7 b s

end Sys2Proof.Machine
end

