-- ==== Sys2Proof/Machine/Payload.lean ====
section
/-! DEFINITION. The operations MASKKEY, BODY_MASKED and BODY_UNMASKED (spec 41_payload.md). -/

namespace Sys2Proof.Machine

/-- MASKKEY (R120): the byte goes to slot `key_cnt`, and the fourth one ends the header. -/
def execMaskKey (b : Byte) (s : State) : Result :=
  if s.dec.keyCnt = 3 then
    if s.dec.length = 0 then .next (complete (setKeyCnt 0 (keyWrite s.dec.keyCnt b s)))
    else .next (goTo .awaitBody (setKeyCnt 0 (keyWrite s.dec.keyCnt b s)))
  else .next (setKeyCnt (s.dec.keyCnt + 1) (keyWrite s.dec.keyCnt b s))

/-- BODY_MASKED (R121): the byte is unmasked with `maskKey[pos % 4]` and stored. -/
def execBodyMasked (b : Byte) (s : State) : Result :=
  .next (finishBody s.dec.pos (bufAppend (unmaskByte b (keyRead (keyIndex s.dec.pos) s)) s))

/-- BODY_UNMASKED (R122): the byte is stored unmodified. -/
def execBodyUnmasked (b : Byte) (s : State) : Result :=
  .next (finishBody s.dec.pos (bufAppend b s))

end Sys2Proof.Machine
end

