-- ==== Sys2Proof/Machine/Reset.lean ====
section
/-! DEFINITION. The operation RESET (spec 70_reset_and_hazards.md R180). -/

namespace Sys2Proof.Machine

/-- RESET (R180): every field and every output register to its reset value (R33), no event; a frame in progress is
discarded. The events already emitted stay part of the run's observation (R186; log 8). -/
def execReset (s : State) : Result :=
  .next { clearFields s with out := Outputs.reset }

end Sys2Proof.Machine
end

