-- ==== Sys2Proof/Machine/Dispatch.lean ====
section
/-! DEFINITION. One arm per operation of spec/opcode_table.json. -/

namespace Sys2Proof.Machine

def exec (i : Instr) (s : State) : Host.Outcome State Fault Refusal :=
  match i with
  | .first fin rsv opcode => Sys2Proof.Machine.execFirst fin rsv opcode s
  | .len7 mask indicator => Sys2Proof.Machine.execLen7 mask indicator s
  | .len16 mask => Sys2Proof.Machine.execLen16 mask s
  | .len64 mask => Sys2Proof.Machine.execLen64 mask s
  | .ext16 b => Sys2Proof.Machine.execExt16 b s
  | .ext64 b => Sys2Proof.Machine.execExt64 b s
  | .maskKey b => Sys2Proof.Machine.execMaskKey b s
  | .bodyMasked b => Sys2Proof.Machine.execBodyMasked b s
  | .bodyUnmasked b => Sys2Proof.Machine.execBodyUnmasked b s
  | .reset => Sys2Proof.Machine.execReset s

end Sys2Proof.Machine
end

