-- ==== Sys2Proof/Machine/Edges.lean ====
section
/-! DEFINITION. Which edge comes next and what it selects (spec 10_state.md R35, 30_encoding.md R81), and how a table word
is placed there (log 11). -/

namespace Sys2Proof.Machine

/-- The next clock edge; when none is listed the host offers nothing (R172, R185; log 2). -/
def nextEdge (s : State) : Edge := s.input.headD Edge.idle

/-- What the next edge selects (R81, R185, R36). -/
def nextAction (s : State) : Action := decode s.dec.st s.dec.masked (nextEdge s)

/-- The table word `w` as the next edge; a byte is read in the control state `tableCtl` (log 11). -/
def placeTableWord (s : State) (nbits w : Nat) : State :=
  match tableEdge nbits w with
  | some e =>
    { s with
      dec := if e.rst then s.dec else { s.dec with st := tableCtl }
      input := e :: s.input }
  | none => s

end Sys2Proof.Machine
end

