-- ==== Sys2Proof/Machine/Step.lean ====
section
/-! DEFINITION. One rising clock edge (spec 00_scope.md R5, 10_state.md R35): the edge's inputs select an operation, the
recovery or nothing (30_encoding.md R81, R36, R185). -/

namespace Sys2Proof.Machine

/-- One clock edge. With no edge listed the host offers nothing, which is an idle edge (R172, R185; log 2). -/
def step (s : State) : Host.Outcome State Fault Refusal :=
  match nextAction s with
  | .operation i => exec i (beginEdge s)
  | .idle => .next (beginEdge s)
  | .recover => .next (recover (beginEdge s))

/-- The state whose next step runs the table word `w` (log 11): the word's edge is the next one, and, where the word is a
byte, the decoder is in the control state the word is read in. A word of more than a byte changes nothing. -/
def State.withFetchWord (s : State) (nbits w : Nat) : State := placeTableWord s nbits w

end Sys2Proof.Machine
end

