-- ==== Sys2Proof/Machine/Invariant.lean ====
section
/-! DEFINITION. The invariant of every state reachable from reset (spec 10_state.md R30), control state by control state,
and the facts about outputs and events that go with it. -/

namespace Sys2Proof.Machine

/-- R30: "A field not listed in a row holds its reset value", and the row's constraints. -/
def DecoderState.Inv (d : DecoderState) : Prop :=
  match d.st with
  | .awaitFirst => d = DecoderState.reset
  | .awaitLen => d = { DecoderState.reset with st := .awaitLen, opcode := d.opcode, fin := d.fin }
  | .awaitExt16 =>
    d = { DecoderState.reset with st := .awaitExt16, opcode := d.opcode, fin := d.fin, masked := d.masked,
                                  length := d.length, extCnt := d.extCnt } ∧
    d.extCnt.toNat ≤ 1 ∧ d.length.toNat < 256 ^ d.extCnt.toNat
  | .awaitExt64 =>
    d = { DecoderState.reset with st := .awaitExt64, opcode := d.opcode, fin := d.fin, masked := d.masked,
                                  length := d.length, extCnt := d.extCnt } ∧
    d.extCnt.toNat ≤ 7 ∧ d.length.toNat < 256 ^ d.extCnt.toNat
  | .awaitMask =>
    d = { DecoderState.reset with st := .awaitMask, opcode := d.opcode, fin := d.fin, masked := d.masked,
                                  length := d.length, maskKey := d.maskKey, keyCnt := d.keyCnt } ∧
    d.masked = true ∧ d.keyCnt.toNat ≤ 3 ∧ ∀ i : Fin 4, d.keyCnt.toNat ≤ i.val → d.maskKey[i] = 0
  | .awaitBody =>
    d = { DecoderState.reset with st := .awaitBody, opcode := d.opcode, fin := d.fin, masked := d.masked,
                                  length := d.length, maskKey := d.maskKey, payloadBuffer := d.payloadBuffer } ∧
    1 ≤ d.length.toNat ∧ d.pos < d.length.toNat ∧ (d.masked = false → d.maskKey = #v[0, 0, 0, 0])

/-- An event's payload has exactly `length` bytes (R34, R123). -/
def DecodedFrame.Inv (f : DecodedFrame) : Prop := f.payload.length = f.length.toNat

/-- The length of a frame whose header is complete is within the capacity (R60, R100). -/
def State.WithinCapacity (s : State) : Prop :=
  s.dec.st = .awaitMask ∨ s.dec.st = .awaitBody → ∀ n, s.capacity = some n → s.dec.length.toNat ≤ n

/-- The `frm_*` outputs of a cycle with `frm_valid` = 1 are the fields of the newest event (R35). -/
def State.FrmShowsLastEvent (s : State) : Prop :=
  s.out.frmValid = true → ∃ f, s.events.getLast? = some f ∧ s.out.frmOpcode = f.opcode ∧ s.out.frmFin = f.fin ∧
    s.out.frmMasked = f.masked ∧ s.out.frmLength = f.length

/-- The state invariant: R30 for the decoder, R34 for every event, R60 for the capacity, R35 for the event outputs. -/
structure State.Inv (s : State) : Prop where
  dec : s.dec.Inv
  events : ∀ f ∈ s.events, f.Inv
  capacity : s.WithinCapacity
  frm : s.FrmShowsLastEvent

end Sys2Proof.Machine
end

