-- ==== Sys2Proof/Machine/Wire.lean ====
section
/-! DEFINITION. A frame as it stands on the wire (spec 30_encoding.md R71, R72) and the event it decodes to (41_payload.md
R123, R124). The machine does not use these; claims about whole frames are stated with them. -/

namespace Sys2Proof.Machine

/-- The big-endian value of a byte sequence, "`byte[i] * 256^(n-1-i)`" summed over i (R53). -/
def bigEndianValue (bs : List Byte) : Nat :=
  ((List.range bs.length).map fun i => (bs.getD i 0).toNat * 256 ^ (bs.length - 1 - i)).sum

/-- The `n` bytes of a big-endian field that holds `v`, most significant first (R53). -/
def bigEndianBytes (n v : Nat) : List Byte :=
  (List.range n).map fun i => BitVec.ofNat 8 (v / 256 ^ (n - 1 - i))

/-- Which length field a frame carries (R71). -/
inductive LengthForm where
  | short
  | ext16
  | ext64
deriving DecidableEq, Repr

/-- The largest length each field holds (R75, R76, R77). -/
def LengthForm.maxLength : LengthForm → Nat
  | .short => 125
  | .ext16 => 65535
  | .ext64 => 2 ^ 64 - 1

/-- `E`, the number of extended-length bytes (R71, R72). -/
def LengthForm.extBytes : LengthForm → Nat
  | .short => 0
  | .ext16 => 2
  | .ext64 => 8

/-- `INDICATOR` of a frame of `n` payload bytes (R71). -/
def LengthForm.indicator (form : LengthForm) (n : Nat) : Indicator :=
  match form with
  | .short => BitVec.ofNat 7 n
  | .ext16 => 126
  | .ext64 => 127

/-- A frame on the wire: the fields of R71, with the mask key when `MASK` = 1 and the body bytes as they are sent. The
length field is any one that can hold the length: a minimal one is not asked for (R78). -/
structure WireFrame where
  fin : Bool
  rsv : BitVec 3
  opcode : Opcode
  form : LengthForm
  key : Option (Vector Byte 4)
  body : List Byte
deriving DecidableEq, Repr

/-- The length fits its field (R75, R76, R77). -/
def WireFrame.wf (f : WireFrame) : Bool := decide (f.body.length ≤ f.form.maxLength)

/-- First byte, second byte, extended length and mask key, in stream order (R71). -/
def WireFrame.header (f : WireFrame) : List Byte :=
  [BitVec.ofBool f.fin ++ f.rsv ++ f.opcode, BitVec.ofBool f.key.isSome ++ f.form.indicator f.body.length] ++
    bigEndianBytes f.form.extBytes f.body.length ++ (f.key.map Vector.toList).getD []

/-- The whole frame in stream order (R71). -/
def WireFrame.bytes (f : WireFrame) : List Byte := f.header ++ f.body

/-- `maskKey[p % 4]` (R52, R55). -/
def keyByteAt (key : Vector Byte 4) (p : Nat) : Byte := key[p % 4]'(Nat.mod_lt p (by decide))

/-- `w[p] ^ maskKey[p % 4]` for every position, `p` counted from `start` (R124). -/
def unmaskFrom (key : Vector Byte 4) (start : Nat) (w : List Byte) : List Byte :=
  w.mapIdx fun i b => b ^^^ keyByteAt key (start + i)

/-- The payload a frame decodes to (R124). -/
def WireFrame.payload (f : WireFrame) : List Byte :=
  match f.key with
  | some key => unmaskFrom key 0 f.body
  | none => f.body

/-- The event a frame decodes to (R34, R123, R124). -/
def WireFrame.event (f : WireFrame) : DecodedFrame where
  opcode := f.opcode
  fin := f.fin
  masked := f.key.isSome
  length := BitVec.ofNat 64 f.body.length
  payload := f.payload

end Sys2Proof.Machine
end

