-- ==== Sys2Proof/Safety.lean ====
section
/-! DEFINITION. Runs, their observation (spec 70_reset_and_hazards.md R186) and what a safe run is: one that reaches no
refusal (60_exceptions.md R162), in the terms the claims use. -/

namespace Sys2Proof.Machine

/-- `n` clock edges, stopping at a refusal ("the refusal is kept for the whole run", R162). -/
def run : Nat → State → Result
  | 0, s => .next s
  | n + 1, s =>
    match step s with
    | .next t => run n t
    | .fault r => .fault r
    | .refused r => .refused r

/-- The run that takes every listed edge. -/
def runAll (s : State) : Result := run s.input.length s

/-- The observation of a run: "the ordered list of DecodedFrame events it emitted, together with its final state" (R186).
The final state is the fields of R20. -/
structure Observation where
  events : List DecodedFrame
  dec : DecoderState
deriving DecidableEq, Repr

/-- What a run shows; a run that reaches a refusal has no observation (R186). -/
def observe : Result → Option Observation
  | .next s => some { events := s.events, dec := s.dec }
  | .fault _ => none
  | .refused _ => none

/-- An edge that makes the block do something: RESET, a recovery or a byte. -/
def edgeActive (e : Edge) : Bool := e.rst || e.stUpset || e.inValid

/-- The length a frame has once the operation ends its length field: LEN7 always ends one, EXT16 and EXT64 on their last
byte (R100, R102, R105, R106). -/
def finalLength : Instr → DecoderState → Option Len
  | .first _ _ _, _ => none
  | .len7 _ indicator, _ => some (indicator.setWidth 64)
  | .len16 _, _ => none
  | .len64 _, _ => none
  | .ext16 b, d => if d.extCnt = 1 then some ((d.length <<< 8) ||| b.setWidth 64) else none
  | .ext64 b, d => if d.extCnt = 7 then some ((d.length <<< 8) ||| b.setWidth 64) else none
  | .maskKey _, _ => none
  | .bodyMasked _, _ => none
  | .bodyUnmasked _, _ => none
  | .reset, _ => none

/-- `length` is not above the capacity (the negation of the guard of `refuse`, R100). -/
def WithinLimit (capacity : Config.Capacity) (length : Nat) : Prop := ∀ n, capacity = some n → length ≤ n

/-- What the end of a length field leaves, written out (R100, R123): `d` is the decoder state with the length complete,
and `r` is the outcome of the operation from the state `s`. -/
structure LengthFieldEnds (s : State) (d : DecoderState) (r : Result) : Prop where
  /-- A masked frame waits for its key. -/
  toMask : d.masked = true → r = .next { s with dec := { d with keyCnt := 0, st := .awaitMask } }
  /-- An unmasked frame with a payload waits for its body. -/
  toBody : d.masked = false → d.length ≠ 0 → r = .next { s with dec := { d with st := .awaitBody } }
  /-- An unmasked empty frame is emitted at once, and every field is cleared. -/
  toFirst : d.masked = false → d.length = 0 → r = .next { s with
    dec := DecoderState.reset
    events := s.events ++ [{ opcode := d.opcode, fin := d.fin, masked := false, length := 0, payload := d.payloadBuffer }]
    out := { s.out with frmValid := true, frmOpcode := d.opcode, frmFin := d.fin, frmMasked := false, frmLength := 0 } }

/-- Two output registers a consumer cannot tell apart: the strobes agree, and the data outputs agree where their strobe
is 1. Where it is 0 a consumer "must not read them" (R35), and nothing is said. -/
structure SameOutputs (o o' : Outputs) : Prop where
  frmValid : o'.frmValid = o.frmValid
  payValid : o'.payValid = o.payValid
  frame : o.frmValid = true →
    o'.frmOpcode = o.frmOpcode ∧ o'.frmFin = o.frmFin ∧ o'.frmMasked = o.frmMasked ∧ o'.frmLength = o.frmLength
  stored : o.payValid = true → o'.payData = o.payData ∧ o'.payIndex = o.payIndex

/-- A safe run of `n` edges: it reaches no refusal and no fault (R162). -/
def SafeFor (n : Nat) (s : State) : Prop := ∃ t, run n s = .next t

end Sys2Proof.Machine
end

