-- ==== Sys2Proof/Certificates/Slice0/Obligations.lean ====
section
/-! DEFINITION. The statements for the provers. They come from the numbered rules of spec/, file by file. A statement whose
docstring says "derived" rests on an inference the spec marks as its own, or on a convention of the model (its log entry is
named), and cites sections, not rules. -/

open Sys2Proof Sys2Proof.Machine

/-! ### Reset, idle edges and the recovery -/

/-- derived (R33's table, R180; log 5): RESET gives every field and every output register its reset value, emits nothing
and changes nothing else, whatever the state was; and the model's reset state holds the same values. That the six data
outputs are 0 while both strobes are 0 is the model's choice of R33 over R35 and I6, which leave them any value (log 5). -/
def Obligations.ResetGivesEveryFieldItsResetValue : Prop :=
  (∀ s : State, exec .reset s = .next { s with
    dec := { st := .awaitFirst, opcode := 0, fin := false, masked := false, length := 0, maskKey := #v[0, 0, 0, 0],
             keyCnt := 0, extCnt := 0, payloadBuffer := [] }
    out := { frmValid := false, frmOpcode := 0, frmFin := false, frmMasked := false, frmLength := 0,
             payValid := false, payData := 0, payIndex := 0 } }) ∧
  exec .reset State.reset = .next State.reset

/-- R180, R191 (and R164's priority): an edge with `rst` = 1 performs RESET in any state, whatever else it carries. The
decoder is in the reset state, a frame in progress is discarded without an event, a byte on the edge is dropped (the input
goes on after the edge), and both strobes are 0. -/
def Obligations.ResetEdgeWinsOverByte : Prop :=
  ∀ (s : State) (e : Edge) (rest : List Edge), s.input = e :: rest → e.rst = true →
    decode s.dec.st s.dec.masked e = .operation .reset ∧
    ∃ t, step s = .next t ∧ t.dec = DecoderState.reset ∧ t.dec.st = .awaitFirst ∧ t.dec.payloadBuffer = [] ∧
      t.out.frmValid = false ∧ t.out.payValid = false ∧ t.events = s.events ∧ t.input = rest ∧ t.capacity = s.capacity

/-- R185: any number of edges with `rst` = 0 and `in_valid` = 0, in any state, keep every field, and both strobes are 0
in the cycle after each. -/
def Obligations.IdleEdgesHoldEveryField : Prop :=
  ∀ (es rest : List Edge) (s : State), (∀ e ∈ es, e.rst = false ∧ e.inValid = false ∧ e.stUpset = false) →
    s.input = es ++ rest →
    ∃ t, run es.length s = .next t ∧ t.dec = s.dec ∧ t.events = s.events ∧ t.capacity = s.capacity ∧ t.input = rest ∧
      (es ≠ [] → t.out.frmValid = false ∧ t.out.payValid = false)

/-- derived (log 2): with no edge listed the host offers nothing, and any number of steps is as many idle edges. -/
def Obligations.NothingOfferedKeepsTheBlockParked : Prop :=
  ∀ (n : Nat) (s : State), s.input = [] →
    ∃ t, run n s = .next t ∧ t.dec = s.dec ∧ t.events = s.events ∧ t.capacity = s.capacity ∧ t.input = []

/-- derived (R21, and R36 as the model reads it, log 7): the six control states have the codes of R21's table, each code
reads back as its state, and 6 and 7 name none; a realisation that finds 6 or 7 at an edge without `rst` takes every field
to its reset value, consumes no byte (the byte of that edge is not fed) and emits nothing. -/
def Obligations.UnusedStateCodeIsRecoveredFrom : Prop :=
  (Ctl.awaitFirst.code = 0 ∧ Ctl.awaitLen.code = 1 ∧ Ctl.awaitExt16.code = 2 ∧ Ctl.awaitExt64.code = 3 ∧
    Ctl.awaitMask.code = 4 ∧ Ctl.awaitBody.code = 5) ∧
  (∀ c : Ctl, Ctl.ofCode c.code = some c) ∧ Ctl.ofCode 6 = none ∧ Ctl.ofCode 7 = none ∧
  ∀ (s : State) (e : Edge) (rest : List Edge), s.input = e :: rest → e.stUpset = true → e.rst = false →
    ∃ t, step s = .next t ∧ t.dec = DecoderState.reset ∧ t.events = s.events ∧ t.out.frmValid = false ∧
      t.out.payValid = false ∧ t.input = rest ∧ t.capacity = s.capacity

/-- derived (log 1): when the next edge selects the operation `i`, the step is `exec i` from the state in which that edge
has been taken from the input, the edge counter has gone up, and both output strobes are 0 until `i` says otherwise. -/
def Obligations.StepRunsTheSelectedOperation : Prop :=
  ∀ (s : State) (e : Edge) (rest : List Edge) (i : Instr), s.input = e :: rest →
    decode s.dec.st s.dec.masked e = .operation i →
    ∃ o : Outputs, o.frmValid = false ∧ o.payValid = false ∧
      step s = exec i { s with input := rest, tick := s.tick + 1, out := o }

/-! ### Decode -/

/-- R73, R74: the fields are the source's own expressions `b & 0x0F`, `(b & 0x80) != 0` and `b & 0x7F`, and the bits 6:4
of a first byte are not read: FIRST does the same whatever they are. -/
def Obligations.FieldsAreTheSourceExpressions : Prop :=
  (∀ b : Byte, (opcodeField b).setWidth 8 = b &&& 0x0F ∧ finField b = (b &&& 0x80 != 0) ∧
    maskField b = (b &&& 0x80 != 0) ∧ (indicatorField b).setWidth 8 = b &&& 0x7F ∧ (indicatorField b).toNat ≤ 127) ∧
  ∀ (s : State) (fin : Bool) (rsv rsv' : BitVec 3) (opcode : Opcode),
    exec (.first fin rsv opcode) s = exec (.first fin rsv' opcode) s

/-- R81: the operation every control state and byte select, and the priority of `rst`. -/
def Obligations.DecodeFollowsTheOperationTable : Prop :=
  ∀ (masked : Bool) (b : Byte),
    decodeByte .awaitFirst masked b = .first (b.getLsbD 7) (b.extractLsb' 4 3) (b.extractLsb' 0 4) ∧
    ((b.extractLsb' 0 7).toNat ≤ 125 → decodeByte .awaitLen masked b = .len7 (b.getLsbD 7) (b.extractLsb' 0 7)) ∧
    ((b.extractLsb' 0 7).toNat = 126 → decodeByte .awaitLen masked b = .len16 (b.getLsbD 7)) ∧
    ((b.extractLsb' 0 7).toNat = 127 → decodeByte .awaitLen masked b = .len64 (b.getLsbD 7)) ∧
    decodeByte .awaitExt16 masked b = .ext16 b ∧
    decodeByte .awaitExt64 masked b = .ext64 b ∧
    decodeByte .awaitMask masked b = .maskKey b ∧
    decodeByte .awaitBody true b = .bodyMasked b ∧
    decodeByte .awaitBody false b = .bodyUnmasked b ∧
    ∀ (st : Ctl) (e : Edge), e.rst = true → decode st masked e = .operation .reset

/-- derived: decode and encode agree. Every well-formed operation, with every operand at every value, is read back from
its own edge in every control state that selects it. -/
def Obligations.DecodeOfEncodeIsTheOperation : Prop :=
  ∀ (i : Instr) (st : Ctl) (masked : Bool), i.wf = true → i.selectedIn st masked = true →
    decode st masked (encode i) = .operation i

/-- derived: no bit of a byte is lost by decoding, in any control state, and what is decoded is a well-formed operation
of that state. -/
def Obligations.EncodeOfDecodeIsTheByte : Prop :=
  ∀ (st : Ctl) (masked : Bool) (b : Byte),
    encodeByte (decodeByte st masked b) = some b ∧ (decodeByte st masked b).wf = true ∧
    (decodeByte st masked b).selectedIn st masked = true

/-- derived (R9, R81): in every control state every byte is the byte of exactly one well-formed operation that the state
selects. -/
def Obligations.EveryByteIsExactlyOneOperation : Prop :=
  ∀ (st : Ctl) (masked : Bool) (b : Byte),
    ∃ i : Instr, (i.wf = true ∧ i.selectedIn st masked = true ∧ encodeByte i = some b) ∧
      ∀ j : Instr, j.wf = true → j.selectedIn st masked = true → encodeByte j = some b → j = i

/-- derived: words written out from the table's encodings (95_test_vectors.md Part 2), at least one for every row that a
byte selects, decode to what they stand for. -/
def Obligations.WrittenWordsDecode : Prop :=
  decodeByte .awaitFirst false 0b10000001 = .first true 0 1 ∧
  decodeByte .awaitFirst false 0b01110000 = .first false 7 0 ∧
  decodeByte .awaitLen false 0b11111101 = .len7 true 125 ∧
  decodeByte .awaitLen false 0b01111110 = .len16 false ∧
  decodeByte .awaitLen false 0b11111111 = .len64 true ∧
  decodeByte .awaitExt16 false 0b00000001 = .ext16 1 ∧
  decodeByte .awaitExt64 false 0b10000000 = .ext64 0x80 ∧
  decodeByte .awaitMask true 0b00010001 = .maskKey 0x11 ∧
  decodeByte .awaitBody true 0b01001001 = .bodyMasked 0x49 ∧
  decodeByte .awaitBody false 0b01001000 = .bodyUnmasked 0x48

/-- derived (R80 of bits 6:4, R101): two first bytes that differ in bits 6:4 alone take the block to the same state, with
the same outputs (those a consumer may read) and events. -/
def Obligations.ReservedBitsReachNoField : Prop :=
  ∀ (s : State) (b c : Byte) (rest : List Edge), s.dec.st = .awaitFirst →
    b.getLsbD 7 = c.getLsbD 7 → b.extractLsb' 0 4 = c.extractLsb' 0 4 →
    ∃ t t', step { s with input := Edge.byte b :: rest } = .next t ∧ step { s with input := Edge.byte c :: rest } = .next t' ∧
      t'.dec = t.dec ∧ t'.events = t.events ∧ t'.capacity = t.capacity ∧ t'.input = t.input ∧ SameOutputs t.out t'.out

/-! ### Header operations -/

/-- R101: FIRST's encoding, its effect on the whole state, and the state it starts from. -/
def Obligations.FirstRecordsOpcodeAndFin : Prop :=
  (∀ (masked : Bool) (b : Byte),
    decodeByte .awaitFirst masked b = .first (b.getLsbD 7) (b.extractLsb' 4 3) (b.extractLsb' 0 4)) ∧
  (∀ (s : State) (fin : Bool) (rsv : BitVec 3) (opcode : Opcode), exec (.first fin rsv opcode) s =
    .next { s with dec := { s.dec with opcode := opcode, fin := fin, st := .awaitLen } }) ∧
  ∀ d : DecoderState, d.Inv → d.st = .awaitFirst → d = DecoderState.reset

/-- R100: `AfterLength()` is the last action of LEN7, of the second EXT16 byte and of the eighth EXT64 byte, and what it
does on every state. -/
def Obligations.AfterLengthChoosesWhatFollows : Prop :=
  (∀ (s : State) (mask : Bool) (indicator : Indicator) (b : Byte) (d : DecoderState),
    d = { s.dec with length := (s.dec.length <<< 8) ||| b.setWidth 64, extCnt := 0 } →
    exec (.len7 mask indicator) s =
      afterLength { s with dec := { s.dec with masked := mask, length := indicator.setWidth 64 } } ∧
    (s.dec.extCnt = 1 → exec (.ext16 b) s = afterLength { s with dec := d }) ∧
    (s.dec.extCnt = 7 → exec (.ext64 b) s = afterLength { s with dec := d })) ∧
  ∀ s : State,
    (∀ n, s.capacity = some n → n < s.dec.length.toNat → afterLength s = .refused .payloadExceedsCapacity) ∧
    ((∀ n, s.capacity = some n → s.dec.length.toNat ≤ n) →
      (s.dec.masked = true → afterLength s = .next { s with dec := { s.dec with keyCnt := 0, st := .awaitMask } }) ∧
      (s.dec.masked = false → s.dec.length = 0 → afterLength s = .next (complete s)) ∧
      (s.dec.masked = false → s.dec.length ≠ 0 → afterLength s = .next { s with dec := { s.dec with st := .awaitBody } }))

/-- R102: LEN7's encoding and effect; `AfterLength()` is R100's. -/
def Obligations.ShortLengthByteSetsMaskAndLength : Prop :=
  (∀ (masked : Bool) (b : Byte), (b.extractLsb' 0 7).toNat ≤ 125 →
    decodeByte .awaitLen masked b = .len7 (b.getLsbD 7) (b.extractLsb' 0 7)) ∧
  ∀ (s : State) (mask : Bool) (indicator : Indicator), exec (.len7 mask indicator) s =
    afterLength { s with dec := { s.dec with masked := mask, length := indicator.setWidth 64 } }

/-- R103: LEN16's encoding and its effect on the whole state. -/
def Obligations.Indicator126AwaitsTwoLengthBytes : Prop :=
  (∀ (masked : Bool) (b : Byte), b.extractLsb' 0 7 = (126 : BitVec 7) →
    decodeByte .awaitLen masked b = .len16 (b.getLsbD 7)) ∧
  ∀ (s : State) (mask : Bool), exec (.len16 mask) s =
    .next { s with dec := { s.dec with masked := mask, length := 0, extCnt := 0, st := .awaitExt16 } }

/-- R104: LEN64's encoding and its effect on the whole state. -/
def Obligations.Indicator127AwaitsEightLengthBytes : Prop :=
  (∀ (masked : Bool) (b : Byte), b.extractLsb' 0 7 = (127 : BitVec 7) →
    decodeByte .awaitLen masked b = .len64 (b.getLsbD 7)) ∧
  ∀ (s : State) (mask : Bool), exec (.len64 mask) s =
    .next { s with dec := { s.dec with masked := mask, length := 0, extCnt := 0, st := .awaitExt64 } }

/-- R105: EXT16 collects one byte; the byte taken at `ext_cnt` = 1 ends the field; the shift is exact. -/
def Obligations.SixteenBitLengthIsCollectedByBytes : Prop :=
  (∀ (masked : Bool) (b : Byte), decodeByte .awaitExt16 masked b = .ext16 b) ∧
  (∀ (s : State) (b : Byte),
    (s.dec.extCnt = 1 → exec (.ext16 b) s = afterLength { s with
      dec := { s.dec with length := (s.dec.length <<< 8) ||| b.setWidth 64, extCnt := 0 } }) ∧
    (s.dec.extCnt ≠ 1 → exec (.ext16 b) s = .next { s with
      dec := { s.dec with length := (s.dec.length <<< 8) ||| b.setWidth 64, extCnt := s.dec.extCnt + 1 } })) ∧
  ∀ (d : DecoderState) (b : Byte), d.Inv → d.st = .awaitExt16 →
    ((d.length <<< 8) ||| b.setWidth 64).toNat = d.length.toNat * 256 + b.toNat

/-- R106: EXT64 collects one byte; the byte taken at `ext_cnt` = 7 ends the field; the shift is exact, so no overflow is
possible. -/
def Obligations.SixtyFourBitLengthIsCollectedByBytes : Prop :=
  (∀ (masked : Bool) (b : Byte), decodeByte .awaitExt64 masked b = .ext64 b) ∧
  (∀ (s : State) (b : Byte),
    (s.dec.extCnt = 7 → exec (.ext64 b) s = afterLength { s with
      dec := { s.dec with length := (s.dec.length <<< 8) ||| b.setWidth 64, extCnt := 0 } }) ∧
    (s.dec.extCnt ≠ 7 → exec (.ext64 b) s = .next { s with
      dec := { s.dec with length := (s.dec.length <<< 8) ||| b.setWidth 64, extCnt := s.dec.extCnt + 1 } })) ∧
  ∀ (d : DecoderState) (b : Byte), d.Inv → d.st = .awaitExt64 →
    ((d.length <<< 8) ||| b.setWidth 64).toNat = d.length.toNat * 256 + b.toNat

/-- derived (R100, R102, R105, R106, R123): LEN7, the last EXT16 byte and the last EXT64 byte complete within the
capacity, and this is all they leave: the key is awaited, the body is awaited, or the empty frame is emitted. -/
def Obligations.LengthFieldEndsWithinCapacity : Prop :=
  (∀ (s : State) (mask : Bool) (indicator : Indicator), WithinLimit s.capacity indicator.toNat →
    LengthFieldEnds s { s.dec with masked := mask, length := indicator.setWidth 64 } (exec (.len7 mask indicator) s)) ∧
  ∀ (s : State) (b : Byte) (length : Len), length = (s.dec.length <<< 8) ||| b.setWidth 64 →
    WithinLimit s.capacity length.toNat →
    (s.dec.extCnt = 1 → LengthFieldEnds s { s.dec with length := length, extCnt := 0 } (exec (.ext16 b) s)) ∧
    (s.dec.extCnt = 7 → LengthFieldEnds s { s.dec with length := length, extCnt := 0 } (exec (.ext64 b) s))

/-- R53: the extended length is the big-endian value of its bytes in arrival order, `sum over i of byte[i] *
256^(n-1-i)`, for n = 2 and n = 8, when the field is fed from its start; what follows is R100's. -/
def Obligations.ExtendedLengthIsBigEndian : Prop :=
  ∀ (s : State) (bs : List Byte) (rest : List Edge),
    (s.dec.st = .awaitExt16 ∧ bs.length = 2) ∨ (s.dec.st = .awaitExt64 ∧ bs.length = 8) →
    s.dec.length = 0 → s.dec.extCnt = 0 → s.input = bs.map Edge.byte ++ rest →
    WithinLimit s.capacity (bigEndianValue bs) →
    bigEndianValue bs < 2 ^ 64 ∧
    ∃ (u t : State) (d : DecoderState), run bs.length s = .next t ∧ d.length.toNat = bigEndianValue bs ∧
      d = { s.dec with length := d.length } ∧ u.dec = s.dec ∧ u.events = s.events ∧ u.input = rest ∧
      u.capacity = s.capacity ∧ u.out.frmValid = false ∧ u.out.payValid = false ∧ LengthFieldEnds u d (.next t)

/-- derived (R107): from the start of an extended-length field, after `k` of its bytes and before its last, `length` is the
exact sum `sum over i < k of byte[i] * 256^(k-1-i)`, below `256^k`, and `ext_cnt` is `k`; the next shift by 8 drops no set
bit; and the block's shift assembles up to eight bytes exactly, the last one included. -/
def Obligations.LengthAssemblyIsExact : Prop :=
  (∀ (s : State) (bs : List Byte) (rest : List Edge),
    (s.dec.st = .awaitExt16 ∧ bs.length < 2) ∨ (s.dec.st = .awaitExt64 ∧ bs.length < 8) →
    s.dec.length = 0 → s.dec.extCnt = 0 → s.input = bs.map Edge.byte ++ rest →
    ∃ t, run bs.length s = .next t ∧ t.dec.length.toNat = bigEndianValue bs ∧
      t.dec.length.toNat < 256 ^ bs.length ∧ t.dec.extCnt.toNat = bs.length ∧
      (t.dec.length <<< 8).toNat = t.dec.length.toNat * 256 ∧
      t.dec = { s.dec with length := t.dec.length, extCnt := t.dec.extCnt } ∧
      t.events = s.events ∧ t.input = rest ∧ t.capacity = s.capacity) ∧
  ∀ bs : List Byte, bs.length ≤ 8 →
    (bs.foldl shiftInByte 0).toNat = bigEndianValue bs ∧ bigEndianValue bs < 256 ^ bs.length

/-! ### The mask key, the body and completion -/

/-- R120: MASKKEY's encoding, its effect in each case, and the flag it is reached with. -/
def Obligations.MaskKeyByteGoesToItsSlot : Prop :=
  (∀ (masked : Bool) (b : Byte), decodeByte .awaitMask masked b = .maskKey b) ∧
  (∀ (s : State) (b : Byte) (key : Vector Byte 4), key = s.dec.maskKey.set s.dec.keyCnt.toNat b →
    (s.dec.keyCnt = 3 → s.dec.length = 0 →
      exec (.maskKey b) s = .next (complete { s with dec := { s.dec with maskKey := key, keyCnt := 0 } })) ∧
    (s.dec.keyCnt = 3 → s.dec.length ≠ 0 →
      exec (.maskKey b) s = .next { s with dec := { s.dec with maskKey := key, keyCnt := 0, st := .awaitBody } }) ∧
    (s.dec.keyCnt ≠ 3 →
      exec (.maskKey b) s = .next { s with dec := { s.dec with maskKey := key, keyCnt := s.dec.keyCnt + 1 } })) ∧
  ∀ d : DecoderState, d.Inv → d.st = .awaitMask → d.masked = true

/-- derived (R54): four key bytes go to the four slots in arrival order, and the body (or, for an empty payload, the next
frame) follows. -/
def Obligations.KeyBytesAreStoredInArrivalOrder : Prop :=
  ∀ (s : State) (k : Vector Byte 4) (rest : List Edge), s.dec.st = .awaitMask → s.dec.keyCnt = 0 →
    s.input = k.toList.map Edge.byte ++ rest →
    ∃ t, run 4 s = .next t ∧ t.input = rest ∧ t.capacity = s.capacity ∧
      (s.dec.length ≠ 0 → t.events = s.events ∧ t.dec = { s.dec with maskKey := k, st := .awaitBody }) ∧
      (s.dec.length = 0 → t.dec = DecoderState.reset ∧
        t.events = s.events ++ [{ opcode := s.dec.opcode, fin := s.dec.fin, masked := s.dec.masked, length := 0,
                                  payload := s.dec.payloadBuffer }])

/-- R121: BODY_MASKED's encoding and effect: the byte at position `p` is unmasked with `maskKey[p % 4]` and stored, and
the frame is completed by its last byte. -/
def Obligations.MaskedBodyByteIsUnmaskedAndStored : Prop :=
  (∀ b : Byte, decodeByte .awaitBody true b = .bodyMasked b) ∧
  ∀ (s u : State) (b v : Byte) (p : Nat), p = s.dec.payloadBuffer.length → v = b ^^^ keyByteAt s.dec.maskKey p →
    u = { s with dec := { s.dec with payloadBuffer := s.dec.payloadBuffer ++ [v] }
                 out := { s.out with payValid := true, payData := v, payIndex := BitVec.ofNat 64 p } } →
    (p + 1 ≠ s.dec.length.toNat → exec (.bodyMasked b) s = .next u) ∧
    (p + 1 = s.dec.length.toNat → exec (.bodyMasked b) s = .next (complete u))

/-- R122: BODY_UNMASKED's encoding and effect: the byte is stored unmodified, the key is not read and is 0 here. -/
def Obligations.PlainBodyByteIsStoredUnmodified : Prop :=
  (∀ b : Byte, decodeByte .awaitBody false b = .bodyUnmasked b) ∧
  (∀ (s u : State) (b : Byte) (p : Nat), p = s.dec.payloadBuffer.length →
    u = { s with dec := { s.dec with payloadBuffer := s.dec.payloadBuffer ++ [b] }
                 out := { s.out with payValid := true, payData := b, payIndex := BitVec.ofNat 64 p } } →
    (p + 1 ≠ s.dec.length.toNat → exec (.bodyUnmasked b) s = .next u) ∧
    (p + 1 = s.dec.length.toNat → exec (.bodyUnmasked b) s = .next (complete u))) ∧
  ∀ d : DecoderState, d.Inv → d.st = .awaitBody → d.masked = false → d.maskKey = #v[0, 0, 0, 0]

/-- R123: `Complete()` emits the event with the values of completion, drives the event outputs, and clears every
per-frame field; nothing else changes. -/
def Obligations.CompletionEmitsAndClears : Prop :=
  ∀ s : State, complete s = { s with
    dec := { st := .awaitFirst, opcode := 0, fin := false, masked := false, length := 0, maskKey := #v[0, 0, 0, 0],
             keyCnt := 0, extCnt := 0, payloadBuffer := [] }
    events := s.events ++ [{ opcode := s.dec.opcode, fin := s.dec.fin, masked := s.dec.masked, length := s.dec.length,
                             payload := s.dec.payloadBuffer }]
    out := { s.out with frmValid := true, frmOpcode := s.dec.opcode, frmFin := s.dec.fin, frmMasked := s.dec.masked,
                        frmLength := s.dec.length } }

/-- derived (R124): the payload content law, from any body position: the body bytes that are left, fed one an edge, emit
one event whose payload is what was stored before followed by `w[p] ^ maskKey[p % 4]` (masked) or `w[p]` (unmasked), and
leave the reset state. -/
def Obligations.BodyBytesDecodeToThePayload : Prop :=
  ∀ (w : List Byte) (s : State) (rest : List Edge), s.dec.st = .awaitBody → w ≠ [] →
    s.dec.payloadBuffer.length + w.length = s.dec.length.toNat → s.input = w.map Edge.byte ++ rest →
    ∃ t, run w.length s = .next t ∧ t.dec = DecoderState.reset ∧ t.input = rest ∧ t.capacity = s.capacity ∧
      t.events = s.events ++ [{
        opcode := s.dec.opcode
        fin := s.dec.fin
        masked := s.dec.masked
        length := s.dec.length
        payload := s.dec.payloadBuffer ++
          (if s.dec.masked then unmaskFrom s.dec.maskKey s.dec.payloadBuffer.length w else w) }]

/-! ### Whole frames -/

/-- derived (R72): a header has 2 + E + 4 * MASK bytes, one of 2, 4, 6, 8, 10 and 14, and the frame has as many more as
its payload. MASK and INDICATOR are the fields of the second byte, and E is 0, 2 or 8 as INDICATOR is at most 125, 126 or
127. The decoder takes exactly that many bytes from a frame boundary to the first body byte. -/
def Obligations.HeaderLengthIsTwoPlusExtPlusKey : Prop :=
  ∀ f : WireFrame,
    (f.header.length = 2 + f.form.extBytes + (if f.key.isSome then 4 else 0) ∧
      f.header.length ∈ [2, 4, 6, 8, 10, 14] ∧ f.bytes.length = f.header.length + f.body.length) ∧
    (f.wf = true → ∃ b : Byte, f.header[1]? = some b ∧
      ((indicatorField b).toNat ≤ 125 → f.header.length = 2 + 0 + 4 * (maskField b).toNat) ∧
      ((indicatorField b).toNat = 126 → f.header.length = 2 + 2 + 4 * (maskField b).toNat) ∧
      ((indicatorField b).toNat = 127 → f.header.length = 2 + 8 + 4 * (maskField b).toNat)) ∧
    ∀ (s : State) (rest : List Edge), f.wf = true → f.body ≠ [] → WithinLimit s.capacity f.body.length →
      s.dec = DecoderState.reset → s.input = f.header.map Edge.byte ++ rest →
      ∃ t, run f.header.length s = .next t ∧ t.dec.st = .awaitBody ∧ t.dec.payloadBuffer = [] ∧
        t.dec.length.toNat = f.body.length ∧ t.dec.masked = f.key.isSome ∧ t.events = s.events ∧ t.input = rest ∧
        t.capacity = s.capacity

/-- derived (R71, R78, R100 to R106, R120 to R124): a whole frame, in any of the three length forms, masked or not, with
every opcode and every value of bits 6:4, fed from a frame boundary, emits exactly its event and leaves the reset state,
the input standing at the byte after it. -/
def Obligations.WholeFrameEmitsExactlyItsEvent : Prop :=
  ∀ (f : WireFrame) (s : State) (rest : List Edge), f.wf = true → WithinLimit s.capacity f.body.length →
    s.dec = DecoderState.reset → s.input = f.bytes.map Edge.byte ++ rest →
    ∃ t, run f.bytes.length s = .next t ∧ t.dec = DecoderState.reset ∧ t.events = s.events ++ [f.event] ∧
      t.input = rest ∧ t.capacity = s.capacity

/-- derived (R57, R123, R128, R129): frames fed back to back, with no separator, emit one event each, in the order of the
frames. -/
def Obligations.BackToBackFramesEmitEventsInOrder : Prop :=
  ∀ (fs : List WireFrame) (s : State) (rest : List Edge),
    (∀ f ∈ fs, f.wf = true ∧ WithinLimit s.capacity f.body.length) → s.dec = DecoderState.reset →
    s.input = (fs.flatMap WireFrame.bytes).map Edge.byte ++ rest →
    ∃ t, run (fs.flatMap WireFrame.bytes).length s = .next t ∧ t.dec = DecoderState.reset ∧
      t.events = s.events ++ fs.map WireFrame.event ∧ t.input = rest ∧ t.capacity = s.capacity

/-- derived (R125): masking a payload with a key and decoding the frame with that key gives the payload back. -/
def Obligations.UnmaskingIsInvolutive : Prop :=
  ∀ (f : WireFrame) (key : Vector Byte 4) (payload : List Byte) (s : State) (rest : List Edge),
    f.key = some key → f.body = unmaskFrom key 0 payload → f.wf = true → WithinLimit s.capacity payload.length →
    s.dec = DecoderState.reset → s.input = f.bytes.map Edge.byte ++ rest →
    ∃ t e, run f.bytes.length s = .next t ∧ t.events = s.events ++ [e] ∧ e.payload = payload ∧
      e.length.toNat = payload.length ∧ e.masked = true

/-! ### Invariants and rules of the whole machine -/

/-- derived (R30, R33): the reset state meets the invariant. -/
def Obligations.ResetStateMeetsTheInvariant : Prop := State.reset.Inv

/-- derived (R30): every step, whatever the edge, keeps the invariant of every control state, the length of every event's
payload, the capacity bound and the agreement of the event outputs. -/
def Obligations.EveryStepKeepsTheInvariant : Prop :=
  ∀ s t : State, s.Inv → step s = .next t → t.Inv

/-- derived (R29, log 14): in every state that meets the invariant, and after every step from one, the payload buffer is
well formed (`0 <= len <= length`), it is non-empty only in `AWAIT_BODY`, and there it is shorter than `length`. -/
def Obligations.PayloadBufferStaysBelowLength : Prop :=
  ∀ s t : State, s.Inv → step s = .next t →
    Memory.wf t.dec = true ∧ (t.dec.payloadBuffer ≠ [] → t.dec.st = .awaitBody ∧ t.dec.pos < t.dec.length.toNat)

/-- derived (R34, R35): a step emits at most one event; `frm_valid` is 1 exactly when it did, and then the event outputs
carry the event's fields. -/
def Obligations.FrameStrobeMarksTheStepThatEmits : Prop :=
  ∀ s t : State, step s = .next t →
    (t.out.frmValid = false ∧ t.events = s.events) ∨
    (t.out.frmValid = true ∧ t.events = s.events ++ [{
      opcode := t.out.frmOpcode
      fin := t.out.frmFin
      masked := t.out.frmMasked
      length := t.out.frmLength
      payload := s.dec.payloadBuffer ++ (if t.out.payValid then [t.out.payData] else []) }])

/-- derived (R35, R51): `pay_valid` is 1 exactly after a body operation; then `pay_index` is the position and `pay_data`
the stored byte; without it no byte is stored, and with it the buffer grows by that byte unless the frame is completed. -/
def Obligations.PayloadStrobeMarksTheStepThatStores : Prop :=
  ∀ s t : State, step s = .next t →
    (t.out.payValid = true ↔ ∃ b, nextAction s = .operation (.bodyMasked b) ∨ nextAction s = .operation (.bodyUnmasked b)) ∧
    (t.out.payValid = true → t.out.payIndex = BitVec.ofNat 64 s.dec.pos ∧
      (t.out.frmValid = false → t.dec.payloadBuffer = s.dec.payloadBuffer ++ [t.out.payData])) ∧
    (t.out.payValid = false → t.dec.payloadBuffer = s.dec.payloadBuffer ∨ t.dec.payloadBuffer = [])

/-- derived (R32, R58, R62): every step consumes exactly the next edge: none twice, none skipped, none looked at ahead;
and `PAYLOAD_CAPACITY` is never changed. -/
def Obligations.EveryEdgeIsConsumedOnce : Prop :=
  (∀ (n : Nat) (s t : State), run n s = .next t → t.input = s.input.drop n ∧ t.capacity = s.capacity) ∧
  ∀ (s : State) (e : Edge) (r₁ r₂ : List Edge) (t₁ : State), step { s with input := e :: r₁ } = .next t₁ →
    ∃ t₂, step { s with input := e :: r₂ } = .next t₂ ∧ t₂.dec = t₁.dec ∧ t₂.events = t₁.events ∧ t₂.input = r₂ ∧
      SameOutputs t₁.out t₂.out

/-- derived (R129): events are only ever appended, at most one an edge. -/
def Obligations.EventsAreOnlyAppended : Prop :=
  ∀ (n : Nat) (s t : State), run n s = .next t → ∃ es, t.events = s.events ++ es ∧ es.length ≤ n

/-- derived (R22 to R25, R50): outside completion, each field changes only by the operations the spec names as its
writers. -/
def Obligations.FieldsHaveOnlyTheirWriters : Prop :=
  ∀ (s t : State) (i : Instr), i ≠ .reset → exec i s = .next t → t.events = s.events →
    (t.dec.opcode ≠ s.dec.opcode → ∃ f r o, i = .first f r o) ∧
    (t.dec.fin ≠ s.dec.fin → ∃ f r o, i = .first f r o) ∧
    (t.dec.masked ≠ s.dec.masked → (∃ m l, i = .len7 m l) ∨ (∃ m, i = .len16 m) ∨ ∃ m, i = .len64 m) ∧
    (t.dec.length ≠ s.dec.length → (∃ m l, i = .len7 m l) ∨ (∃ m, i = .len16 m) ∨ (∃ m, i = .len64 m) ∨
      (∃ b, i = .ext16 b) ∨ ∃ b, i = .ext64 b) ∧
    (t.dec.maskKey ≠ s.dec.maskKey → ∃ b, i = .maskKey b) ∧
    (t.dec.payloadBuffer ≠ s.dec.payloadBuffer → (∃ b, i = .bodyMasked b) ∨ ∃ b, i = .bodyUnmasked b)

/-- derived (the frames of R100 to R106, R120): a header operation that does not complete a frame changes only the fields
its rule writes, stores no payload byte, and leaves every index of the payload buffer reading as before. The values written
are given, but for `st` and the counters that depend on the case; `key_cnt` changes under LEN7, EXT16 and EXT64 only where
`AfterLength()` goes to the mask key. -/
def Obligations.HeaderOperationsFrame : Prop :=
  (∀ (s t : State) (fin : Bool) (rsv : BitVec 3) (opcode : Opcode), exec (.first fin rsv opcode) s = .next t →
    t.dec = { s.dec with st := .awaitLen, opcode := opcode, fin := fin } ∧ t.out = s.out ∧
    t.events = s.events ∧ t.capacity = s.capacity ∧ t.input = s.input ∧ ∀ a, readByte t a = readByte s a) ∧
  (∀ (s t : State) (m : Bool) (indicator : Indicator), exec (.len7 m indicator) s = .next t → t.events = s.events →
    t.dec = { s.dec with st := t.dec.st, masked := m, length := indicator.setWidth 64, keyCnt := t.dec.keyCnt } ∧
    (t.dec.keyCnt ≠ s.dec.keyCnt → t.dec.st = .awaitMask) ∧
    t.out = s.out ∧ t.capacity = s.capacity ∧ t.input = s.input ∧ ∀ a, readByte t a = readByte s a) ∧
  (∀ (s t : State) (i : Instr) (m : Bool), i = .len16 m ∨ i = .len64 m → exec i s = .next t →
    t.dec = { s.dec with st := t.dec.st, masked := m, length := 0, extCnt := 0 } ∧ t.out = s.out ∧
    t.events = s.events ∧ t.capacity = s.capacity ∧ t.input = s.input ∧ ∀ a, readByte t a = readByte s a) ∧
  (∀ (s t : State) (i : Instr) (b : Byte), i = .ext16 b ∨ i = .ext64 b → exec i s = .next t → t.events = s.events →
    t.dec = { s.dec with st := t.dec.st, length := (s.dec.length <<< 8) ||| b.setWidth 64, keyCnt := t.dec.keyCnt,
                         extCnt := t.dec.extCnt } ∧
    (t.dec.keyCnt ≠ s.dec.keyCnt → t.dec.st = .awaitMask) ∧
    t.out = s.out ∧ t.capacity = s.capacity ∧ t.input = s.input ∧ ∀ a, readByte t a = readByte s a) ∧
  ∀ (s t : State) (b : Byte), exec (.maskKey b) s = .next t → t.events = s.events →
    t.dec = { s.dec with st := t.dec.st, maskKey := t.dec.maskKey, keyCnt := t.dec.keyCnt } ∧
    (∀ j : BitVec 2, j ≠ s.dec.keyCnt → keyRead j t = keyRead j s) ∧ keyRead s.dec.keyCnt t = b ∧
    t.out = s.out ∧ t.capacity = s.capacity ∧ t.input = s.input ∧ ∀ a, readByte t a = readByte s a

/-- derived (the frame of R121, R122): a body operation that does not complete the frame changes no field but the payload
buffer, and in it no index but the position it stores at, where the stored byte is read back. -/
def Obligations.BodyOperationsFrame : Prop :=
  ∀ (s t : State) (i : Instr) (b v : Byte),
    (i = .bodyMasked b ∧ v = b ^^^ keyByteAt s.dec.maskKey s.dec.pos) ∨ (i = .bodyUnmasked b ∧ v = b) →
    exec i s = .next t → t.events = s.events →
    t.dec = { s.dec with payloadBuffer := t.dec.payloadBuffer } ∧ t.capacity = s.capacity ∧ t.input = s.input ∧
    readByte t s.dec.pos = some v ∧ ∀ a, a ≠ s.dec.pos → readByte t a = readByte s a

/-- derived (the effect of R52's two primitives): a slot of the mask-key store reads what was last written to it, and a
write leaves every other slot, every other field and everything outside the store alone. -/
def Obligations.KeySlotReadsWhatWasWritten : Prop :=
  ∀ (s : State) (i : BitVec 2) (v : Byte),
    keyRead i (keyWrite i v s) = v ∧ (∀ j, j ≠ i → keyRead j (keyWrite i v s) = keyRead j s) ∧
    keyWrite i v s = { s with dec := { s.dec with maskKey := (keyWrite i v s).dec.maskKey } }

/-- derived (R51): an index of the payload buffer is written once in a frame: a step keeps every stored byte at its index,
or the buffer has been cleared whole. -/
def Obligations.StoredBytesAreNeverOverwritten : Prop :=
  ∀ s t : State, step s = .next t →
    t.dec.payloadBuffer = [] ∨ ∀ a v, readByte s a = some v → readByte t a = some v

/-- derived (R23, R79): no operation depends on `opcode` or `fin`: from states that differ in these alone, a step leaves
states that differ in these, in the event outputs of these and in those of the event the step emits alone: the events that
stood before are the same, and so is everything else (data outputs whose strobe is 0 are not compared). -/
def Obligations.OpcodeAndFinSteerNothing : Prop :=
  ∀ (s s' t : State) (opcode : Opcode) (fin : Bool), s' = { s with dec := { s.dec with opcode := opcode, fin := fin } } →
    step s = .next t →
    ∃ t', step s' = .next t' ∧ t'.dec = { t.dec with opcode := t'.dec.opcode, fin := t'.dec.fin } ∧
      t'.out.frmValid = t.out.frmValid ∧ t'.out.payValid = t.out.payValid ∧
      (t.out.frmValid = true → t'.out.frmMasked = t.out.frmMasked ∧ t'.out.frmLength = t.out.frmLength) ∧
      (t.out.payValid = true → t'.out.payData = t.out.payData ∧ t'.out.payIndex = t.out.payIndex) ∧
      t'.input = t.input ∧ t'.capacity = t.capacity ∧
      ∃ new new' : List DecodedFrame, t.events = s.events ++ new ∧ t'.events = s.events ++ new' ∧
        new'.map (fun f => (f.masked, f.length, f.payload)) = new.map (fun f => (f.masked, f.length, f.payload))

/-- derived (R68): the observation of a run does not depend on how many idle edges fall between the bytes, nor where. -/
def Obligations.ObservationIgnoresIdleEdges : Prop :=
  ∀ (s : State) (es : List Edge),
    observe (runAll { s with input := es }) = observe (runAll { s with input := es.filter edgeActive })

/-! ### Refusals and completion -/

/-- R162: no step faults; a step is refused exactly when it ends a length field whose length is above a finite capacity,
and a refusal is kept for the whole run. -/
def Obligations.OnlyAnOversizedFrameIsRefused : Prop :=
  (∀ (s : State) (r : Fault), step s ≠ .fault r) ∧
  (∀ (s : State) (r : Refusal), step s = .refused r ↔ r = .payloadExceedsCapacity ∧
    ∃ i length n, nextAction s = .operation i ∧ finalLength i s.dec = some length ∧ s.capacity = some n ∧
      n < length.toNat) ∧
  ∀ (m n : Nat) (s t : State) (r : Refusal), run m s = .next t → step t = .refused r → run (m + 1 + n) s = .refused r

/-- derived (R60, R160): with an unbounded capacity no run is ever refused. -/
def Obligations.UnboundedCapacityNeverRefuses : Prop :=
  ∀ (n : Nat) (s : State), s.capacity = none → SafeFor n s

/-- derived (R9, R160): every operation completes in every state and with every operand, but for the end of a length field
above the capacity. -/
def Obligations.EveryOperationCompletesWithinCapacity : Prop :=
  ∀ (i : Instr) (s : State), (∀ length, finalLength i s.dec = some length → WithinLimit s.capacity length.toNat) →
    ∃ t, exec i s = .next t
end

