-- ==== Sys2Proof/Laws/Decode.lean ====
section
/-! SUPPORT. The small lemmas of the decoder: what each control state decodes a byte to, and the two fields of a length
byte that an encoder put together. -/

namespace Sys2Proof

@[simp] theorem decodeByte_awaitFirst (m : Bool) (b : Byte) :
    decodeByte .awaitFirst m b = .first (finField b) (rsvField b) (opcodeField b) := rfl

@[simp] theorem decodeByte_awaitLen (m : Bool) (b : Byte) : decodeByte .awaitLen m b = decodeLengthByte b := rfl

@[simp] theorem decodeByte_awaitExt16 (m : Bool) (b : Byte) : decodeByte .awaitExt16 m b = .ext16 b := rfl

@[simp] theorem decodeByte_awaitExt64 (m : Bool) (b : Byte) : decodeByte .awaitExt64 m b = .ext64 b := rfl

@[simp] theorem decodeByte_awaitMask (m : Bool) (b : Byte) : decodeByte .awaitMask m b = .maskKey b := rfl

@[simp] theorem decodeByte_awaitBody_masked (b : Byte) : decodeByte .awaitBody true b = .bodyMasked b := rfl

@[simp] theorem decodeByte_awaitBody_unmasked (b : Byte) : decodeByte .awaitBody false b = .bodyUnmasked b := rfl

/-- A byte that is offered alone selects the operation it decodes to. -/
@[simp] theorem decode_byte (st : Ctl) (m : Bool) (b : Byte) :
    decode st m (Edge.byte b) = .operation (decodeByte st m b) := rfl

/-- The mask flag an encoder put in front of an indicator (R74). -/
@[simp] theorem maskField_append (mask : Bool) (l : Indicator) : maskField (BitVec.ofBool mask ++ l) = mask := by
  revert mask l; decide

/-- The indicator an encoder put behind a mask flag (R74). -/
@[simp] theorem indicatorField_append (mask : Bool) (l : Indicator) :
    indicatorField (BitVec.ofBool mask ++ l) = l := by
  revert mask l; decide

/-- An indicator is short or one of the two codes: "the 7-bit field is exhaustively handled by the three branches" (R80). -/
theorem indicator_cases (l : Indicator) : l ≤ 125 ∨ l = 126 ∨ l = 127 := by
  revert l; decide

end Sys2Proof
end

