-- ==== Sys2Proof/Laws/State.lean ====
section
/-! SUPPORT. What each shared operation leaves in each field of the state, true by unfolding. -/

namespace Sys2Proof.Machine

@[simp] theorem goTo_dec (c : Ctl) (s : State) : (goTo c s).dec = { s.dec with st := c } := rfl
@[simp] theorem goTo_out (c : Ctl) (s : State) : (goTo c s).out = s.out := rfl
@[simp] theorem goTo_events (c : Ctl) (s : State) : (goTo c s).events = s.events := rfl
@[simp] theorem goTo_capacity (c : Ctl) (s : State) : (goTo c s).capacity = s.capacity := rfl
@[simp] theorem goTo_input (c : Ctl) (s : State) : (goTo c s).input = s.input := rfl
@[simp] theorem goTo_tick (c : Ctl) (s : State) : (goTo c s).tick = s.tick := rfl

@[simp] theorem setOpcode_dec (v : Opcode) (s : State) : (setOpcode v s).dec = { s.dec with opcode := v } := rfl
@[simp] theorem setOpcode_out (v : Opcode) (s : State) : (setOpcode v s).out = s.out := rfl
@[simp] theorem setOpcode_events (v : Opcode) (s : State) : (setOpcode v s).events = s.events := rfl
@[simp] theorem setOpcode_capacity (v : Opcode) (s : State) : (setOpcode v s).capacity = s.capacity := rfl
@[simp] theorem setOpcode_input (v : Opcode) (s : State) : (setOpcode v s).input = s.input := rfl
@[simp] theorem setOpcode_tick (v : Opcode) (s : State) : (setOpcode v s).tick = s.tick := rfl

@[simp] theorem setFin_dec (v : Bool) (s : State) : (setFin v s).dec = { s.dec with fin := v } := rfl
@[simp] theorem setFin_out (v : Bool) (s : State) : (setFin v s).out = s.out := rfl
@[simp] theorem setFin_events (v : Bool) (s : State) : (setFin v s).events = s.events := rfl
@[simp] theorem setFin_capacity (v : Bool) (s : State) : (setFin v s).capacity = s.capacity := rfl
@[simp] theorem setFin_input (v : Bool) (s : State) : (setFin v s).input = s.input := rfl
@[simp] theorem setFin_tick (v : Bool) (s : State) : (setFin v s).tick = s.tick := rfl

@[simp] theorem setMasked_dec (v : Bool) (s : State) : (setMasked v s).dec = { s.dec with masked := v } := rfl
@[simp] theorem setMasked_out (v : Bool) (s : State) : (setMasked v s).out = s.out := rfl
@[simp] theorem setMasked_events (v : Bool) (s : State) : (setMasked v s).events = s.events := rfl
@[simp] theorem setMasked_capacity (v : Bool) (s : State) : (setMasked v s).capacity = s.capacity := rfl
@[simp] theorem setMasked_input (v : Bool) (s : State) : (setMasked v s).input = s.input := rfl
@[simp] theorem setMasked_tick (v : Bool) (s : State) : (setMasked v s).tick = s.tick := rfl

@[simp] theorem setLength_dec (v : Len) (s : State) : (setLength v s).dec = { s.dec with length := v } := rfl
@[simp] theorem setLength_out (v : Len) (s : State) : (setLength v s).out = s.out := rfl
@[simp] theorem setLength_events (v : Len) (s : State) : (setLength v s).events = s.events := rfl
@[simp] theorem setLength_capacity (v : Len) (s : State) : (setLength v s).capacity = s.capacity := rfl
@[simp] theorem setLength_input (v : Len) (s : State) : (setLength v s).input = s.input := rfl
@[simp] theorem setLength_tick (v : Len) (s : State) : (setLength v s).tick = s.tick := rfl

@[simp] theorem setKeyCnt_dec (v : BitVec 2) (s : State) : (setKeyCnt v s).dec = { s.dec with keyCnt := v } := rfl
@[simp] theorem setKeyCnt_out (v : BitVec 2) (s : State) : (setKeyCnt v s).out = s.out := rfl
@[simp] theorem setKeyCnt_events (v : BitVec 2) (s : State) : (setKeyCnt v s).events = s.events := rfl
@[simp] theorem setKeyCnt_capacity (v : BitVec 2) (s : State) : (setKeyCnt v s).capacity = s.capacity := rfl
@[simp] theorem setKeyCnt_input (v : BitVec 2) (s : State) : (setKeyCnt v s).input = s.input := rfl
@[simp] theorem setKeyCnt_tick (v : BitVec 2) (s : State) : (setKeyCnt v s).tick = s.tick := rfl

@[simp] theorem setExtCnt_dec (v : BitVec 3) (s : State) : (setExtCnt v s).dec = { s.dec with extCnt := v } := rfl
@[simp] theorem setExtCnt_out (v : BitVec 3) (s : State) : (setExtCnt v s).out = s.out := rfl
@[simp] theorem setExtCnt_events (v : BitVec 3) (s : State) : (setExtCnt v s).events = s.events := rfl
@[simp] theorem setExtCnt_capacity (v : BitVec 3) (s : State) : (setExtCnt v s).capacity = s.capacity := rfl
@[simp] theorem setExtCnt_input (v : BitVec 3) (s : State) : (setExtCnt v s).input = s.input := rfl
@[simp] theorem setExtCnt_tick (v : BitVec 3) (s : State) : (setExtCnt v s).tick = s.tick := rfl

@[simp] theorem keyWrite_dec (i : BitVec 2) (v : Byte) (s : State) :
    (keyWrite i v s).dec = { s.dec with maskKey := s.dec.maskKey.set i.toNat v } := rfl
@[simp] theorem keyWrite_out (i : BitVec 2) (v : Byte) (s : State) : (keyWrite i v s).out = s.out := rfl
@[simp] theorem keyWrite_events (i : BitVec 2) (v : Byte) (s : State) : (keyWrite i v s).events = s.events := rfl
@[simp] theorem keyWrite_capacity (i : BitVec 2) (v : Byte) (s : State) :
    (keyWrite i v s).capacity = s.capacity := rfl
@[simp] theorem keyWrite_input (i : BitVec 2) (v : Byte) (s : State) : (keyWrite i v s).input = s.input := rfl
@[simp] theorem keyWrite_tick (i : BitVec 2) (v : Byte) (s : State) : (keyWrite i v s).tick = s.tick := rfl

@[simp] theorem bufAppend_dec (v : Byte) (s : State) :
    (bufAppend v s).dec = { s.dec with payloadBuffer := s.dec.payloadBuffer ++ [v] } := rfl
@[simp] theorem bufAppend_out (v : Byte) (s : State) :
    (bufAppend v s).out = { s.out with payValid := true, payData := v, payIndex := BitVec.ofNat 64 s.dec.pos } := rfl
@[simp] theorem bufAppend_events (v : Byte) (s : State) : (bufAppend v s).events = s.events := rfl
@[simp] theorem bufAppend_capacity (v : Byte) (s : State) : (bufAppend v s).capacity = s.capacity := rfl
@[simp] theorem bufAppend_input (v : Byte) (s : State) : (bufAppend v s).input = s.input := rfl
@[simp] theorem bufAppend_tick (v : Byte) (s : State) : (bufAppend v s).tick = s.tick := rfl

@[simp] theorem emit_dec (f : DecodedFrame) (s : State) : (emit f s).dec = s.dec := rfl
@[simp] theorem emit_out (f : DecodedFrame) (s : State) :
    (emit f s).out = { s.out with frmValid := true, frmOpcode := f.opcode, frmFin := f.fin, frmMasked := f.masked, frmLength := f.length } := rfl
@[simp] theorem emit_events (f : DecodedFrame) (s : State) : (emit f s).events = s.events ++ [f] := rfl
@[simp] theorem emit_capacity (f : DecodedFrame) (s : State) : (emit f s).capacity = s.capacity := rfl
@[simp] theorem emit_input (f : DecodedFrame) (s : State) : (emit f s).input = s.input := rfl
@[simp] theorem emit_tick (f : DecodedFrame) (s : State) : (emit f s).tick = s.tick := rfl

@[simp] theorem clearFields_dec (s : State) : (clearFields s).dec = DecoderState.reset := rfl
@[simp] theorem clearFields_out (s : State) : (clearFields s).out = s.out := rfl
@[simp] theorem clearFields_events (s : State) : (clearFields s).events = s.events := rfl
@[simp] theorem clearFields_capacity (s : State) : (clearFields s).capacity = s.capacity := rfl
@[simp] theorem clearFields_input (s : State) : (clearFields s).input = s.input := rfl
@[simp] theorem clearFields_tick (s : State) : (clearFields s).tick = s.tick := rfl

@[simp] theorem complete_dec (s : State) : (complete s).dec = DecoderState.reset := rfl
@[simp] theorem complete_out (s : State) :
    (complete s).out =
      { s.out with frmValid := true
                   frmOpcode := s.dec.opcode
                   frmFin := s.dec.fin
                   frmMasked := s.dec.masked
                   frmLength := s.dec.length } := rfl
@[simp] theorem complete_events (s : State) : (complete s).events = s.events ++ [s.dec.event] := rfl
@[simp] theorem complete_capacity (s : State) : (complete s).capacity = s.capacity := rfl
@[simp] theorem complete_input (s : State) : (complete s).input = s.input := rfl
@[simp] theorem complete_tick (s : State) : (complete s).tick = s.tick := rfl

@[simp] theorem recover_dec (s : State) : (recover s).dec = DecoderState.reset := rfl
@[simp] theorem recover_out (s : State) : (recover s).out = s.out := rfl
@[simp] theorem recover_events (s : State) : (recover s).events = s.events := rfl
@[simp] theorem recover_capacity (s : State) : (recover s).capacity = s.capacity := rfl
@[simp] theorem recover_input (s : State) : (recover s).input = s.input := rfl
@[simp] theorem recover_tick (s : State) : (recover s).tick = s.tick := rfl

@[simp] theorem beginEdge_dec (s : State) : (beginEdge s).dec = s.dec := rfl
@[simp] theorem beginEdge_out (s : State) : (beginEdge s).out = idleOutputs s.tick := rfl
@[simp] theorem beginEdge_events (s : State) : (beginEdge s).events = s.events := rfl
@[simp] theorem beginEdge_capacity (s : State) : (beginEdge s).capacity = s.capacity := rfl
@[simp] theorem beginEdge_input (s : State) : (beginEdge s).input = s.input.tail := rfl
@[simp] theorem beginEdge_tick (s : State) : (beginEdge s).tick = s.tick + 1 := rfl

@[simp] theorem idleOutputs_frmValid (k : Nat) : (idleOutputs k).frmValid = false := rfl
@[simp] theorem idleOutputs_payValid (k : Nat) : (idleOutputs k).payValid = false := rfl

@[simp] theorem event_payload (d : DecoderState) : d.event.payload = d.payloadBuffer := rfl
@[simp] theorem event_length (d : DecoderState) : d.event.length = d.length := rfl

/-- R33 for the fields that other lemmas need one by one. -/
@[simp] theorem reset_st : DecoderState.reset.st = .awaitFirst := rfl
@[simp] theorem reset_length : DecoderState.reset.length = 0 := rfl
@[simp] theorem reset_payloadBuffer : DecoderState.reset.payloadBuffer = [] := rfl

end Sys2Proof.Machine
end

