-- ==== Sys2Proof/Laws/Ops.lean ====
section
/-! SUPPORT. What each shared operation can do, said once: the arithmetic of the operands, the two stores, the dispatch
after a length field, and the parts of the state that no operation touches. -/

namespace Sys2Proof.Machine

/-! ### Operands -/

/-- The shift of a length byte is exact while the length has its top byte free (R105 to R107). -/
theorem shiftInByte_toNat (l : Len) (b : Byte) (h : l.toNat < 2 ^ 56) :
    (shiftInByte l b).toNat = l.toNat * 256 + b.toNat := by
  have hb : b.toNat < 2 ^ 8 := b.isLt
  have hl : l.toNat <<< 8 % 2 ^ 64 = 2 ^ 8 * l.toNat := by
    rw [Nat.shiftLeft_eq, Nat.mod_eq_of_lt (by omega)]; omega
  have hs : (b.setWidth 64).toNat = b.toNat := by
    rw [BitVec.toNat_setWidth, Nat.mod_eq_of_lt (by omega)]
  unfold shiftInByte
  rw [BitVec.toNat_or, BitVec.toNat_shiftLeft, hl, hs, ← Nat.two_pow_add_eq_or_of_lt hb]
  omega

/-- `p % 4 = p[1:0]` (R126). -/
@[simp] theorem keyIndex_toNat (p : Nat) : (keyIndex p).toNat = p % 4 := by simp [keyIndex]

@[simp] theorem fits_none (l : Len) : fits none l = true := rfl

theorem fits_iff (c : Config.Capacity) (l : Len) : fits c l = true ↔ WithinLimit c l.toNat := by
  cases c <;> simp [fits, WithinLimit]

/-! ### The two stores -/

/-- `KeyRead` after `KeyWrite` of the same slot (R52). -/
@[simp] theorem keyRead_keyWrite_same (i : BitVec 2) (v : Byte) (s : State) : keyRead i (keyWrite i v s) = v := by
  simp [keyRead]

/-- `KeyRead` after `KeyWrite` of another slot (R52). -/
theorem keyRead_keyWrite_other {i j : BitVec 2} (h : i ≠ j) (v : Byte) (s : State) :
    keyRead j (keyWrite i v s) = keyRead j s := by
  have : i.toNat ≠ j.toNat := fun e => h (BitVec.eq_of_toNat_eq e)
  simp [keyRead, Vector.getElem_set_ne, this]

/-- An append leaves every index but `pos` as it was (R51). -/
theorem readByte_bufAppend_other (v : Byte) (s : State) {a : Nat} (h : a ≠ s.dec.pos) :
    readByte (bufAppend v s) a = readByte s a := by
  unfold DecoderState.pos at h
  simp only [readByte, bufAppend_dec]
  rcases Nat.lt_or_ge a s.dec.payloadBuffer.length with hl | hl
  · rw [List.getElem?_append_left hl]
  · rw [List.getElem?_eq_none (by simp; omega), List.getElem?_eq_none hl]

/-- An append puts its byte at `pos` (R51). -/
@[simp] theorem readByte_bufAppend_pos (v : Byte) (s : State) : readByte (bufAppend v s) s.dec.pos = some v := by
  simp [readByte, DecoderState.pos]

/-- Every operation of the payload buffer keeps its well-formedness (R29): an append below `length`. -/
theorem bufAppend_wf (v : Byte) (s : State) (h : s.dec.pos < s.dec.length.toNat) :
    Memory.wf (bufAppend v s).dec = true := by
  simp only [Memory.wf, DecoderState.pos, bufAppend_dec] at *
  simp; omega

/-- Per-frame clear keeps the buffer's well-formedness (R29, R123). -/
theorem clearFields_wf (s : State) : Memory.wf (clearFields s).dec = true := by
  rw [clearFields_dec]; decide

theorem reset_memory_wf : Memory.wf State.reset.dec = true := by decide

/-! ### The end of a length field -/

/-- Everything `AfterLength()` can do (R100). -/
theorem afterLength_next {s t : State} (h : afterLength s = .next t) :
    fits s.capacity s.dec.length = true ∧
    ((s.dec.masked = true ∧ t = goTo .awaitMask (setKeyCnt 0 s)) ∨
     (s.dec.masked = false ∧ s.dec.length = 0 ∧ t = complete s) ∨
     (s.dec.masked = false ∧ s.dec.length ≠ 0 ∧ t = goTo .awaitBody s)) := by
  unfold afterLength at h
  split at h
  case isFalse => cases h
  case isTrue hf =>
    refine ⟨hf, ?_⟩
    split at h
    case isTrue hm => exact .inl ⟨hm, by cases h; rfl⟩
    case isFalse hm =>
      have hm : s.dec.masked = false := by simpa using hm
      split at h
      case isTrue hl => exact .inr (.inl ⟨hm, hl, by cases h; rfl⟩)
      case isFalse hl => exact .inr (.inr ⟨hm, hl, by cases h; rfl⟩)

/-- `AfterLength()` refuses exactly above the capacity (R100, R162). -/
theorem afterLength_refused_iff (s : State) (r : Refusal) :
    afterLength s = .refused r ↔ fits s.capacity s.dec.length = false ∧ r = .payloadExceedsCapacity := by
  unfold afterLength
  cases hf : fits s.capacity s.dec.length
  · simp [eq_comm]
  · simp only [if_true]
    split <;> (try split) <;> simp

/-- `AfterLength()` never faults (R160). -/
theorem afterLength_ne_fault (s : State) (r : Fault) : afterLength s ≠ .fault r := by cases r

/-- Within the capacity the end of a length field is one of the three ways on (R100). -/
theorem afterLength_ends {s : State} (h : fits s.capacity s.dec.length = true) :
    LengthFieldEnds s s.dec (afterLength s) := by
  constructor
  · intro hm; simp [afterLength, h, hm, goTo, setKeyCnt]
  · intro hm hl; unfold afterLength; rw [if_pos h, if_neg (by simp [hm]), if_neg hl]; rfl
  · intro hm hl; unfold afterLength; rw [if_pos h, if_neg (by simp [hm]), if_pos hl]
    simp [complete, clearFields, emit, DecoderState.event, hm, hl]

/-- Within the capacity `AfterLength()` completes, in one of its three ways (R100). -/
theorem afterLength_completes {s : State} (h : fits s.capacity s.dec.length = true) :
    ∃ t, afterLength s = .next t ∧ LengthFieldEnds s s.dec (.next t) := by
  have ends := afterLength_ends h
  cases ha : afterLength s with
  | next t => exact ⟨t, rfl, ha ▸ ends⟩
  | fault r => cases r
  | refused r => rw [afterLength_refused_iff, h] at ha; exact absurd ha.1 (by simp)

/-! ### What no operation touches -/

/-- The capacity, the edges to come and the counter: what only the edge itself changes. -/
structure SameSurroundings (s t : State) : Prop where
  capacity : t.capacity = s.capacity
  input : t.input = s.input
  tick : t.tick = s.tick

theorem SameSurroundings.refl (s : State) : SameSurroundings s s := ⟨rfl, rfl, rfl⟩

theorem SameSurroundings.trans {s t u : State} (h' : SameSurroundings t u) (h : SameSurroundings s t) :
    SameSurroundings s u :=
  ⟨h'.capacity.trans h.capacity, h'.input.trans h.input, h'.tick.trans h.tick⟩

theorem finishBody_surroundings (p : Nat) (s : State) : SameSurroundings s (finishBody p s) := by
  unfold finishBody; split <;> exact ⟨rfl, rfl, rfl⟩

theorem afterLength_surroundings {s t : State} (h : afterLength s = .next t) : SameSurroundings s t := by
  obtain ⟨-, ⟨-, rfl⟩ | ⟨-, -, rfl⟩ | ⟨-, -, rfl⟩⟩ := afterLength_next h <;> exact ⟨rfl, rfl, rfl⟩

/-- Everything one byte of an extended length can do (R105, R106). -/
theorem collectLength_next {last : BitVec 3} {b : Byte} {s t : State} (h : collectLength last b s = .next t) :
    (s.dec.extCnt = last ∧ afterLength (setExtCnt 0 (setLength (shiftInByte s.dec.length b) s)) = .next t) ∨
    (s.dec.extCnt ≠ last ∧ t = setExtCnt (s.dec.extCnt + 1) (setLength (shiftInByte s.dec.length b) s)) := by
  unfold collectLength at h
  split at h
  case isTrue hc => exact .inl ⟨hc, h⟩
  case isFalse hc => exact .inr ⟨hc, by cases h; rfl⟩

theorem collectLength_surroundings {last : BitVec 3} {b : Byte} {s t : State} (h : collectLength last b s = .next t) :
    SameSurroundings s t := by
  obtain ⟨-, h'⟩ | ⟨-, rfl⟩ := collectLength_next h
  · exact .trans (afterLength_surroundings h') ⟨rfl, rfl, rfl⟩
  · exact ⟨rfl, rfl, rfl⟩

/-- Everything MASKKEY can do (R120). -/
theorem execMaskKey_next {b : Byte} {s t : State} (h : execMaskKey b s = .next t) :
    (s.dec.keyCnt = 3 ∧ s.dec.length = 0 ∧ t = complete (setKeyCnt 0 (keyWrite s.dec.keyCnt b s))) ∨
    (s.dec.keyCnt = 3 ∧ s.dec.length ≠ 0 ∧ t = goTo .awaitBody (setKeyCnt 0 (keyWrite s.dec.keyCnt b s))) ∨
    (s.dec.keyCnt ≠ 3 ∧ t = setKeyCnt (s.dec.keyCnt + 1) (keyWrite s.dec.keyCnt b s)) := by
  unfold execMaskKey at h
  split at h
  case isTrue hk =>
    split at h
    case isTrue hl => exact .inl ⟨hk, hl, by cases h; rfl⟩
    case isFalse hl => exact .inr (.inl ⟨hk, hl, by cases h; rfl⟩)
  case isFalse hk => exact .inr (.inr ⟨hk, by cases h; rfl⟩)

/-- Everything the end of a body step can do (R121, R122). -/
theorem finishBody_cases (p : Nat) (s : State) :
    (p + 1 = s.dec.length.toNat ∧ finishBody p s = complete s) ∨
    (p + 1 ≠ s.dec.length.toNat ∧ finishBody p s = s) := by
  unfold finishBody; split
  case isTrue h => exact .inl ⟨h, rfl⟩
  case isFalse h => exact .inr ⟨h, rfl⟩

/-- No operation touches the capacity, the edges to come or the counter. -/
theorem exec_surroundings {i : Instr} {s t : State} (h : exec i s = .next t) : SameSurroundings s t := by
  cases i with
  | first => cases h; exact ⟨rfl, rfl, rfl⟩
  | len7 => exact .trans (afterLength_surroundings (s := setLength _ (setMasked _ s)) h) ⟨rfl, rfl, rfl⟩
  | len16 => cases h; exact ⟨rfl, rfl, rfl⟩
  | len64 => cases h; exact ⟨rfl, rfl, rfl⟩
  | ext16 => exact collectLength_surroundings h
  | ext64 => exact collectLength_surroundings h
  | maskKey => obtain ⟨-, -, rfl⟩ | ⟨-, -, rfl⟩ | ⟨-, rfl⟩ := execMaskKey_next h <;> exact ⟨rfl, rfl, rfl⟩
  | bodyMasked => cases h; exact .trans (finishBody_surroundings _ _) ⟨rfl, rfl, rfl⟩
  | bodyUnmasked => cases h; exact .trans (finishBody_surroundings _ _) ⟨rfl, rfl, rfl⟩
  | reset => cases h; exact ⟨rfl, rfl, rfl⟩

/-! ### What any operation can do -/

theorem keyRead_keyIndex (s : State) (p : Nat) : keyRead (keyIndex p) s = keyByteAt s.dec.maskKey p := by
  simp [keyRead, keyByteAt]

/-- What the two body operations are, in terms of the byte they store (R121, R122). -/
def Stores (i : Instr) (s : State) (v : Byte) : Prop :=
  ∃ b, (i = .bodyMasked b ∧ v = b ^^^ keyByteAt s.dec.maskKey s.dec.pos) ∨ (i = .bodyUnmasked b ∧ v = b)

theorem exec_of_stores {i : Instr} {s : State} {v : Byte} (h : Stores i s v) :
    exec i s = .next (finishBody s.dec.pos (bufAppend v s)) := by
  obtain ⟨b, ⟨rfl, rfl⟩ | ⟨rfl, rfl⟩⟩ := h
  · rw [← keyRead_keyIndex]; rfl
  · rfl

/-- Only decoder fields other than the payload buffer may differ: what the header operations write (R101 to R106, R120). -/
structure WritesHeader (s u : State) : Prop where
  frame : u = { s with dec := u.dec }
  buffer : u.dec.payloadBuffer = s.dec.payloadBuffer

/-- Everything an operation can do, in three shapes: RESET; a header operation, which writes decoder fields other than
the payload buffer and may complete an empty frame; a body operation, which stores one byte and may complete the frame. -/
theorem exec_shape {i : Instr} {s t : State} (h : exec i s = .next t) :
    (i = .reset ∧ t = { clearFields s with out := Outputs.reset }) ∨
    (i ≠ .reset ∧ (∀ v, ¬ Stores i s v) ∧
      ∃ u, (t = u ∨ t = complete u) ∧ WritesHeader s u) ∨
    (i ≠ .reset ∧ ∃ v, Stores i s v ∧
      ((s.dec.pos + 1 ≠ s.dec.length.toNat ∧ t = bufAppend v s) ∨
       (s.dec.pos + 1 = s.dec.length.toNat ∧ t = complete (bufAppend v s)))) := by
  have after : ∀ u, afterLength u = .next t → WritesHeader s u → ∃ u, (t = u ∨ t = complete u) ∧ WritesHeader s u := by
    intro u ha hu
    obtain ⟨-, ⟨-, rfl⟩ | ⟨-, -, rfl⟩ | ⟨-, -, rfl⟩⟩ := afterLength_next ha
    · exact ⟨_, .inl rfl, by rw [hu.frame]; rfl, hu.buffer⟩
    · exact ⟨u, .inr rfl, hu⟩
    · exact ⟨_, .inl rfl, by rw [hu.frame]; rfl, hu.buffer⟩
  have collect : ∀ last b, collectLength last b s = .next t → ∃ u, (t = u ∨ t = complete u) ∧ WritesHeader s u := by
    intro last b hc
    obtain ⟨-, h'⟩ | ⟨-, rfl⟩ := collectLength_next hc
    · exact after _ h' ⟨rfl, rfl⟩
    · exact ⟨_, .inl rfl, rfl, rfl⟩
  have body : ∀ v, Stores i s v → (s.dec.pos + 1 ≠ s.dec.length.toNat ∧ t = bufAppend v s) ∨
      (s.dec.pos + 1 = s.dec.length.toNat ∧ t = complete (bufAppend v s)) := by
    intro v hv
    rw [exec_of_stores hv] at h
    obtain ⟨hp, he⟩ | ⟨hp, he⟩ := finishBody_cases s.dec.pos (bufAppend v s) <;> rw [he] at h <;> cases h
    · exact .inr ⟨hp, rfl⟩
    · exact .inl ⟨hp, rfl⟩
  cases i with
  | first => cases h; exact .inr (.inl ⟨by simp, by simp [Stores], _, .inl rfl, rfl, rfl⟩)
  | len7 => exact .inr (.inl ⟨by simp, by simp [Stores], after (setLength _ (setMasked _ s)) h ⟨rfl, rfl⟩⟩)
  | len16 => cases h; exact .inr (.inl ⟨by simp, by simp [Stores], _, .inl rfl, rfl, rfl⟩)
  | len64 => cases h; exact .inr (.inl ⟨by simp, by simp [Stores], _, .inl rfl, rfl, rfl⟩)
  | ext16 => exact .inr (.inl ⟨by simp, by simp [Stores], collect _ _ h⟩)
  | ext64 => exact .inr (.inl ⟨by simp, by simp [Stores], collect _ _ h⟩)
  | maskKey =>
    refine .inr (.inl ⟨by simp, by simp [Stores], ?_⟩)
    obtain ⟨-, -, rfl⟩ | ⟨-, -, rfl⟩ | ⟨-, rfl⟩ := execMaskKey_next h
    · exact ⟨_, .inr rfl, rfl, rfl⟩
    · exact ⟨_, .inl rfl, rfl, rfl⟩
    · exact ⟨_, .inl rfl, rfl, rfl⟩
  | bodyMasked b => exact .inr (.inr ⟨by simp, _, ⟨b, .inl ⟨rfl, rfl⟩⟩, body _ ⟨b, .inl ⟨rfl, rfl⟩⟩⟩)
  | bodyUnmasked b => exact .inr (.inr ⟨by simp, b, ⟨b, .inr ⟨rfl, rfl⟩⟩, body _ ⟨b, .inr ⟨rfl, rfl⟩⟩⟩)
  | reset => cases h; exact .inl ⟨rfl, rfl⟩

/-- When an operation is refused: at the end of a length field above a finite capacity, and nowhere else (R162). -/
theorem exec_refused_iff (i : Instr) (s : State) (r : Refusal) :
    exec i s = .refused r ↔ r = .payloadExceedsCapacity ∧
      ∃ l n, finalLength i s.dec = some l ∧ s.capacity = some n ∧ n < l.toNat := by
  have after : ∀ u : State, u.capacity = s.capacity → (afterLength u = .refused r ↔
      r = .payloadExceedsCapacity ∧ ∃ n, s.capacity = some n ∧ n < u.dec.length.toNat) := by
    intro u h
    rw [afterLength_refused_iff, h]
    cases s.capacity <;> simp [fits, and_comm]
  have ends : ∀ l, finalLength i s.dec = some l → ((∃ n, s.capacity = some n ∧ n < l.toNat) ↔
      ∃ l n, finalLength i s.dec = some l ∧ s.capacity = some n ∧ n < l.toNat) := by
    intro l hl; simp [hl]
  have goesOn : ∀ {t : State}, finalLength i s.dec = none → ((Host.Outcome.next t : Result) = .refused r ↔
      r = .payloadExceedsCapacity ∧ ∃ l n, finalLength i s.dec = some l ∧ s.capacity = some n ∧ n < l.toNat) := by
    intro t hn; simp [hn]
  cases i with
  | first => exact goesOn rfl
  | len7 m l => exact (after (setLength (shortLength l) (setMasked m s)) rfl).trans (and_congr_right' (ends _ rfl))
  | len16 => exact goesOn rfl
  | len64 => exact goesOn rfl
  | ext16 b =>
    by_cases h : s.dec.extCnt = 1
    · rw [show exec (.ext16 b) s = _ from if_pos h]
      exact (after (setExtCnt 0 (setLength (shiftInByte s.dec.length b) s)) rfl).trans
        (and_congr_right' (ends _ (if_pos h)))
    · rw [show exec (.ext16 b) s = _ from if_neg h]; exact goesOn (if_neg h)
  | ext64 b =>
    by_cases h : s.dec.extCnt = 7
    · rw [show exec (.ext64 b) s = _ from if_pos h]
      exact (after (setExtCnt 0 (setLength (shiftInByte s.dec.length b) s)) rfl).trans
        (and_congr_right' (ends _ (if_pos h)))
    · rw [show exec (.ext64 b) s = _ from if_neg h]; exact goesOn (if_neg h)
  | maskKey b =>
    unfold exec execMaskKey
    dsimp only
    split
    · split <;> exact goesOn rfl
    · exact goesOn rfl
  | bodyMasked => exact goesOn rfl
  | bodyUnmasked => exact goesOn rfl
  | reset => exact goesOn rfl

end Sys2Proof.Machine
end

