-- ==== Sys2Proof/Laws/PerInstr.lean ====
section
/-! SUPPORT. Facts about every operation as syntax, one lemma a constructor. -/

namespace Sys2Proof.Laws.ActiveEdge

/-- The edge that asks for an operation makes the block do something, carries no upset, and asserts `rst` for RESET alone
(spec 10_state.md R35, 70_reset_and_hazards.md R180). -/
def Statement (i : Instr) : Prop :=
  Machine.edgeActive (encode i) = true ∧ (encode i).stUpset = false ∧ ((encode i).rst = true ↔ i = .reset)

theorem first (fin : Bool) (rsv : BitVec 3) (opcode : Opcode) : Statement (.first fin rsv opcode) := by
  simp [Statement, encode, encodeByte, Machine.edgeActive]

theorem len7 (mask : Bool) (indicator : Indicator) : Statement (.len7 mask indicator) := by
  simp [Statement, encode, encodeByte, Machine.edgeActive]

theorem len16 (mask : Bool) : Statement (.len16 mask) := by
  simp [Statement, encode, encodeByte, Machine.edgeActive]

theorem len64 (mask : Bool) : Statement (.len64 mask) := by
  simp [Statement, encode, encodeByte, Machine.edgeActive]

theorem ext16 (b : Byte) : Statement (.ext16 b) := by
  simp [Statement, encode, encodeByte, Machine.edgeActive]

theorem ext64 (b : Byte) : Statement (.ext64 b) := by
  simp [Statement, encode, encodeByte, Machine.edgeActive]

theorem maskKey (b : Byte) : Statement (.maskKey b) := by
  simp [Statement, encode, encodeByte, Machine.edgeActive]

theorem bodyMasked (b : Byte) : Statement (.bodyMasked b) := by
  simp [Statement, encode, encodeByte, Machine.edgeActive]

theorem bodyUnmasked (b : Byte) : Statement (.bodyUnmasked b) := by
  simp [Statement, encode, encodeByte, Machine.edgeActive]

theorem reset : Statement .reset := by
  simp [Statement, encode, encodeByte, Machine.edgeActive]

end Sys2Proof.Laws.ActiveEdge
end

