-- ==== Sys2Proof/Laws/Step.lean ====
section
/-! SUPPORT. What one clock edge can do, and how runs compose. -/

namespace Sys2Proof.Machine

/-- Everything an edge can do: run one operation, hold every field, or recover. -/
theorem step_next {s t : State} (h : step s = .next t) :
    (∃ i, nextAction s = .operation i ∧ exec i (beginEdge s) = .next t) ∨
    (nextAction s = .idle ∧ t = beginEdge s) ∨
    (nextAction s = .recover ∧ t = recover (beginEdge s)) := by
  unfold step at h
  split at h
  case h_1 i hi => exact .inl ⟨i, hi, h⟩
  case h_2 hi => exact .inr (.inl ⟨hi, by cases h; rfl⟩)
  case h_3 hi => exact .inr (.inr ⟨hi, by cases h; rfl⟩)

/-- A step runs the operation the next edge selects. -/
theorem step_operation {s : State} {i : Instr} (h : nextAction s = .operation i) : step s = exec i (beginEdge s) := by
  unfold step; rw [h]

theorem step_idle {s : State} (h : nextAction s = .idle) : step s = .next (beginEdge s) := by
  unfold step; rw [h]

theorem step_recover {s : State} (h : nextAction s = .recover) : step s = .next (recover (beginEdge s)) := by
  unfold step; rw [h]

/-- What the next edge selects when one is listed. -/
theorem nextAction_cons {s : State} {e : Edge} {es : List Edge} (h : s.input = e :: es) :
    nextAction s = decode s.dec.st s.dec.masked e := by
  simp [nextAction, nextEdge, h]

/-- A byte on the next edge runs the operation it decodes to. -/
theorem step_byte {s : State} {b : Byte} {es : List Edge} (h : s.input = Edge.byte b :: es) :
    step s = exec (decodeByte s.dec.st s.dec.masked b) (beginEdge s) :=
  step_operation (by rw [nextAction_cons h, decode_byte])

/-- Every edge is taken exactly once, and the capacity never changes (R32). -/
theorem step_surroundings {s t : State} (h : step s = .next t) :
    t.capacity = s.capacity ∧ t.input = s.input.tail ∧ t.tick = s.tick + 1 := by
  obtain ⟨i, -, h'⟩ | ⟨-, rfl⟩ | ⟨-, rfl⟩ := step_next h
  · have := exec_surroundings h'; exact ⟨this.capacity, this.input, this.tick⟩
  · exact ⟨rfl, rfl, rfl⟩
  · exact ⟨rfl, rfl, rfl⟩

@[simp] theorem run_zero (s : State) : run 0 s = .next s := rfl

/-- The first edge of a run. -/
theorem run_succ_of_step {n : Nat} {s t : State} (h : step s = .next t) : run (n + 1) s = run n t := by
  simp only [run, h]

/-- A run goes on from where a shorter run ended. -/
theorem run_add {m n : Nat} {s t : State} (h : run m s = .next t) : run (m + n) s = run n t := by
  induction m generalizing s with
  | zero => cases h; rw [Nat.zero_add]
  | succ m ih =>
    rw [Nat.add_right_comm]
    unfold run at h
    split at h
    case h_1 u hu => rw [run_succ_of_step hu]; exact ih h
    all_goals cases h

/-- The model's `run` is the host's. -/
theorem run_eq_core_run (n : Nat) (s : State) : run n s = Host.Core.run core n s := by
  induction n generalizing s with
  | zero => rfl
  | succ n ih =>
    have hc : core.step s = step s := rfl
    unfold run
    simp only [Host.Core.run]
    cases hs : step s with
    | next t => rw [hc, hs]; exact ih t
    | fault r => cases r
    | refused r => rw [hc, hs]; rfl

end Sys2Proof.Machine
end

