-- ==== Sys2Proof/Laws/Wire.lean ====
section
/-! SUPPORT. The small lemmas of the wire format: the big-endian value of a byte sequence and its bytes (spec 20_memory.md
R53), and the unmasking of a body (41_payload.md R124). -/

namespace Sys2Proof.Machine

@[simp] theorem bigEndianValue_nil : bigEndianValue [] = 0 := rfl

/-- One more byte at the low end. -/
theorem bigEndianValue_append (bs : List Byte) (b : Byte) :
    bigEndianValue (bs ++ [b]) = bigEndianValue bs * 256 + b.toNat := by
  have shift : (List.range bs.length).map (fun i => ((bs ++ [b]).getD i 0).toNat * 256 ^ (bs.length + 1 - 1 - i)) =
      (List.range bs.length).map (fun i => ((bs.getD i 0).toNat * 256 ^ (bs.length - 1 - i)) * 256) := by
    apply List.map_congr_left
    intro i hi
    have hi : i < bs.length := by simpa using hi
    rw [show bs.length + 1 - 1 - i = (bs.length - 1 - i) + 1 by omega, pow_succ, Nat.mul_assoc]
    congr 2
    simp [List.getElem?_append_left hi]
  unfold bigEndianValue
  rw [List.length_append, List.length_singleton, List.range_succ, List.map_append, List.sum_append, shift,
    List.sum_map_mul_right]
  simp

@[simp] theorem bigEndianBytes_length (n v : Nat) : (bigEndianBytes n v).length = n := by simp [bigEndianBytes]

/-- The low byte stands last. -/
theorem bigEndianBytes_succ (n v : Nat) :
    bigEndianBytes (n + 1) v = bigEndianBytes n (v / 256) ++ [BitVec.ofNat 8 v] := by
  unfold bigEndianBytes
  rw [List.range_succ, List.map_append]
  congr 1
  · apply List.map_congr_left
    intro i hi
    have hi : i < n := by simpa using hi
    rw [show n + 1 - 1 - i = (n - 1 - i) + 1 by omega, pow_succ, Nat.mul_comm, ← Nat.div_div_eq_div_mul]
  · simp

/-- A number that fits the field is the value of its bytes. -/
theorem bigEndianValue_bigEndianBytes (n v : Nat) (h : v < 256 ^ n) : bigEndianValue (bigEndianBytes n v) = v := by
  induction n generalizing v with
  | zero => have : v = 0 := by simpa using h
            subst this; rfl
  | succ n ih =>
    rw [bigEndianBytes_succ, bigEndianValue_append, ih (v / 256) (by rw [pow_succ] at h; omega)]
    simp; omega

@[simp] theorem unmaskFrom_nil (key : Vector Byte 4) (p : Nat) : unmaskFrom key p [] = [] := rfl

@[simp] theorem unmaskFrom_length (key : Vector Byte 4) (p : Nat) (w : List Byte) :
    (unmaskFrom key p w).length = w.length := by simp [unmaskFrom]

/-- The first byte is unmasked with the slot of its position, the rest from the next position on. -/
theorem unmaskFrom_cons (key : Vector Byte 4) (p : Nat) (b : Byte) (w : List Byte) :
    unmaskFrom key p (b :: w) = (b ^^^ keyByteAt key p) :: unmaskFrom key (p + 1) w := by
  simp only [unmaskFrom, List.mapIdx_cons, Nat.add_zero, List.cons.injEq, true_and]
  congr 1
  funext i c
  rw [show p + (i + 1) = p + 1 + i by omega]

end Sys2Proof.Machine
end

