-- ==== Sys2Proof/Tests/Slice0.lean ====
section
/-! SUPPORT. Tests on fixed values, taken from spec/95_test_vectors.md or worked out by hand from the rule named, and for
every statement with hypotheses a witness that meets them. -/

namespace Sys2Proof.Tests

open Sys2Proof Sys2Proof.Machine

/-! ### Helpers -/

/-- The reset machine with this decoder state and one byte offered. -/
def feed (d : DecoderState) (b : Byte) : State := { State.reset with dec := d, input := [Edge.byte b] }

/-- The reset decoder state in the control state `st`. -/
def inCtl (st : Ctl) : DecoderState := { DecoderState.reset with st := st }

/-- The decoder state after one byte, if the step is not refused. -/
def decAfter (d : DecoderState) (b : Byte) : Option DecoderState := (observe (step (feed d b))).map (·.dec)

/-- The events of one byte, if the step is not refused. -/
def eventsAfter (d : DecoderState) (b : Byte) : Option (List DecodedFrame) :=
  (observe (step (feed d b))).map (·.events)

/-- The outputs after a step, if it is not refused. -/
def outAfter : Result → Option Outputs
  | .next t => some t.out
  | .fault _ => none
  | .refused _ => none

/-- Whether a step is refused. -/
def isRefused : Result → Bool
  | .next _ => false
  | .fault _ => false
  | .refused _ => true

/-- A masked body in progress, with the key of Program D. -/
def maskedBody (length : Len) (buffer : List Byte) : DecoderState :=
  { inCtl .awaitBody with opcode := 1, fin := true, masked := true, length := length, maskKey := #v[0xA1, 0xB2, 0xC3, 0xD4], payloadBuffer := buffer }

/-- An unmasked body in progress. -/
def plainBody (length : Len) (buffer : List Byte) : DecoderState :=
  { inCtl .awaitBody with opcode := 1, fin := true, length := length, payloadBuffer := buffer }

/-! ### WellFormed smoke test (R102: the indicator of LEN7 is 0 to 125) -/

theorem test_wf_refuses_len7_126 : (Instr.len7 false 126).wf = false := by decide
theorem test_wf_refuses_len7_127 : (Instr.len7 true 127).wf = false := by decide
theorem test_wf_takes_len7_125 : (Instr.len7 true 125).wf = true := by decide

/-! ### Decoding: words written out from the table's encodings -/

theorem test_decode_first : decodeByte .awaitFirst false 0b10000001 = .first true 0b000 0b0001 := by decide
theorem test_decode_first_rsv : decodeByte .awaitFirst false 0b01110000 = .first false 0b111 0b0000 := by decide
theorem test_decode_len7 : decodeByte .awaitLen false 0b11111101 = .len7 true 125 := by decide
theorem test_decode_len16 : decodeByte .awaitLen false 0b01111110 = .len16 false := by decide
theorem test_decode_len64 : decodeByte .awaitLen false 0b11111111 = .len64 true := by decide
theorem test_decode_ext16 : decodeByte .awaitExt16 false 0b00000001 = .ext16 0x01 := by decide
theorem test_decode_ext64 : decodeByte .awaitExt64 true 0b10000000 = .ext64 0x80 := by decide
theorem test_decode_maskKey : decodeByte .awaitMask true 0b00010001 = .maskKey 0x11 := by decide
theorem test_decode_bodyMasked : decodeByte .awaitBody true 0b01001001 = .bodyMasked 0x49 := by decide
theorem test_decode_bodyUnmasked : decodeByte .awaitBody false 0b01001000 = .bodyUnmasked 0x48 := by decide
theorem test_decode_reset_with_byte :
    decode .awaitLen false { rst := true, inValid := true, inByte := 0, stUpset := false } = .operation .reset := by decide
theorem test_table_word_len16 : decodeTableWord 8 0x7E = some (.len16 false) := by decide
theorem test_table_word_len64 : decodeTableWord 8 0x7F = some (.len64 false) := by decide
theorem test_table_word_reset : decodeTableWord 0 0 = some .reset := by decide
theorem test_fetch_word_runs_len16 :
    (observe (step (State.reset.withFetchWord 8 0x7E))).map (·.dec.st) = some .awaitExt16 := by decide
theorem test_fetch_word_runs_len64 :
    (observe (step (State.reset.withFetchWord 8 0xFF))).map (·.dec.st) = some .awaitExt64 := by decide

/-! ### One step each, from the vectors of 95_test_vectors.md Part 2 -/

/-- V-FIRST, 0x81. -/
theorem test_first_81 :
    decAfter (inCtl .awaitFirst) 0x81 = some { inCtl .awaitLen with opcode := 1, fin := true } := by decide

/-- V-FIRST, 0x70: bits 6:4 are ignored. -/
theorem test_first_70 : decAfter (inCtl .awaitFirst) 0x70 = some (inCtl .awaitLen) := by decide

/-- V-LEN7, 0x00: the empty frame is emitted at once. -/
theorem test_len7_empty_frame :
    eventsAfter { inCtl .awaitLen with opcode := 1, fin := true } 0x00 =
      some [{ opcode := 1, fin := true, masked := false, length := 0, payload := [] }] := by decide

/-- V-LEN7, 0xFD: masked, length 125. -/
theorem test_len7_masked_125 :
    decAfter { inCtl .awaitLen with opcode := 1, fin := true } 0xFD =
      some { inCtl .awaitMask with opcode := 1, fin := true, masked := true, length := 125 } := by decide

/-- V-LEN7 with `PAYLOAD_CAPACITY` = 4 and 0x05. -/
theorem test_len7_refused_above_capacity :
    isRefused (step { feed (inCtl .awaitLen) 0x05 with capacity := some 4 }) = true := by decide

/-- V-LEN7 with `PAYLOAD_CAPACITY` = 5 and 0x05: not above the capacity. -/
theorem test_len7_at_capacity :
    isRefused (step { feed (inCtl .awaitLen) 0x05 with capacity := some 5 }) = false := by decide

/-- V-LEN16, 0xFE. -/
theorem test_len16_masked :
    decAfter (inCtl .awaitLen) 0xFE = some { inCtl .awaitExt16 with masked := true } := by decide

/-- V-LEN64, 0x7F. -/
theorem test_len64_unmasked : decAfter (inCtl .awaitLen) 0x7F = some (inCtl .awaitExt64) := by decide

/-- V-EXT16, first byte 0x01. -/
theorem test_ext16_first_byte :
    decAfter (inCtl .awaitExt16) 0x01 = some { inCtl .awaitExt16 with length := 1, extCnt := 1 } := by decide

/-- V-EXT16, second byte 0x00 after 0x01: length 256. -/
theorem test_ext16_second_byte :
    decAfter { inCtl .awaitExt16 with length := 1, extCnt := 1 } 0x00 =
      some { inCtl .awaitBody with length := 256 } := by decide

/-- V-EXT64, eight bytes 0xFF: the last one. -/
theorem test_ext64_last_byte :
    decAfter { inCtl .awaitExt64 with length := 0xFFFFFFFFFFFFFF, extCnt := 7 } 0xFF =
      some { inCtl .awaitBody with length := 0xFFFFFFFFFFFFFFFF } := by decide

/-- V-EXT64, 80 as the first byte. -/
theorem test_ext64_first_byte :
    decAfter (inCtl .awaitExt64) 0x80 = some { inCtl .awaitExt64 with length := 0x80, extCnt := 1 } := by decide

/-- V-MASKKEY, the fourth byte with length 0 completes the frame. -/
theorem test_maskKey_empty_frame :
    eventsAfter { inCtl .awaitMask with opcode := 9, fin := true, masked := true, maskKey := #v[0x11, 0x22, 0x33, 0], keyCnt := 3 } 0x44 =
      some [{ opcode := 9, fin := true, masked := true, length := 0, payload := [] }] := by decide

/-- V-MASKKEY, the second byte goes to slot 1. -/
theorem test_maskKey_slot :
    decAfter { inCtl .awaitMask with masked := true, length := 2, maskKey := #v[1, 0, 0, 0], keyCnt := 1 } 0x02 =
      some { inCtl .awaitMask with masked := true, length := 2, maskKey := #v[1, 2, 0, 0], keyCnt := 2 } := by decide

/-- V-BODY_MASKED, position 4 wraps to slot 0. -/
theorem test_bodyMasked_wraps :
    decAfter (maskedBody 6 [0x61, 0x62, 0x63, 0x64]) 0xC4 = some (maskedBody 6 [0x61, 0x62, 0x63, 0x64, 0x65]) := by decide

/-- V-BODY_MASKED, position 5 completes the frame. -/
theorem test_bodyMasked_completes :
    eventsAfter (maskedBody 6 [0x61, 0x62, 0x63, 0x64, 0x65]) 0xD4 =
      some [{ opcode := 1, fin := true, masked := true, length := 6, payload := [0x61, 0x62, 0x63, 0x64, 0x65, 0x66] }] := by
  decide

/-- V-BODY_UNMASKED, the last byte of "Hello". -/
theorem test_bodyUnmasked_completes :
    eventsAfter (plainBody 5 [0x48, 0x65, 0x6C, 0x6C]) 0x6F =
      some [{ opcode := 1, fin := true, masked := false, length := 5, payload := [0x48, 0x65, 0x6C, 0x6C, 0x6F] }] := by
  decide

/-- R35: the body byte that is stored is driven out with its position, and no event is. -/
theorem test_bodyUnmasked_outputs :
    (outAfter (step (feed (plainBody 3 [0x41]) 0xFF))).map (fun o => (o.payValid, o.payData, o.payIndex, o.frmValid)) =
      some (true, 0xFF, 1, false) := by decide

/-- V-RESET: a partial frame is dropped without an event. -/
theorem test_reset_drops_partial_frame :
    observe (step { State.reset with dec := plainBody 5 [0x48, 0x65], input := [Edge.reset] }) =
      some { events := [], dec := DecoderState.reset } := by decide

/-- V-RESET: an edge with `rst` = 1 and a byte; the byte is not consumed. -/
theorem test_reset_wins_over_byte :
    observe (step { State.reset with dec := inCtl .awaitLen, input := [{ Edge.byte 0x00 with rst := true }] }) =
      some { events := [], dec := DecoderState.reset } := by decide

/-! ### Witnesses: states and operands that meet the hypotheses of the statements -/

/-- A small invariant state in each control state, used below. -/
theorem witness_inv_first : (inCtl .awaitFirst).Inv := rfl

/-- `length` = 255 with `ext_cnt` = 1, the largest value (R30). -/
theorem witness_inv_ext16 : ({ inCtl .awaitExt16 with length := 255, extCnt := 1 } : DecoderState).Inv :=
  ⟨rfl, by decide, by decide⟩

/-- `length` = 256^7 - 1 with `ext_cnt` = 7, the largest value (R30). -/
theorem witness_inv_ext64 :
    ({ inCtl .awaitExt64 with length := 0xFFFFFFFFFFFFFF, extCnt := 7 } : DecoderState).Inv :=
  ⟨rfl, by decide, by decide⟩

theorem witness_inv_mask :
    ({ inCtl .awaitMask with masked := true, length := 2, maskKey := #v[1, 0, 0, 0], keyCnt := 1 } : DecoderState).Inv :=
  ⟨rfl, rfl, by decide, by decide⟩

theorem witness_inv_body_masked : (maskedBody 6 [0x61]).Inv := ⟨rfl, by decide, by decide, by decide⟩

theorem witness_inv_body_plain : (plainBody 1 []).Inv := ⟨rfl, by decide, by decide, by decide⟩

/-- A reachable-looking state that meets the whole invariant and answers a next state: for EveryStepKeepsTheInvariant and
PayloadBufferStaysBelowLength. -/
theorem witness_state_inv : (feed (maskedBody 6 [0x61]) 0xD0).Inv ∧ ∃ t, step (feed (maskedBody 6 [0x61]) 0xD0) = .next t :=
  ⟨⟨witness_inv_body_masked, by simp [feed, State.reset], fun _ n h => (by cases h), fun h => (by cases h)⟩, _, rfl⟩

theorem witness_ResetEdgeWinsOverByte : ∃ (s : State) (e : Edge) (rest : List Edge),
    s.input = e :: rest ∧ e.rst = true ∧ e.inValid = true :=
  ⟨{ State.reset with input := [{ Edge.byte 0 with rst := true }] }, _, [], rfl, rfl, rfl⟩

theorem witness_IdleEdgesHoldEveryField : ∃ (es rest : List Edge) (s : State),
    (∀ e ∈ es, e.rst = false ∧ e.inValid = false ∧ e.stUpset = false) ∧ s.input = es ++ rest ∧ es ≠ [] :=
  ⟨[Edge.idle], [Edge.byte 1], { State.reset with input := [Edge.idle, Edge.byte 1] }, by decide, rfl, by decide⟩

theorem witness_NothingOfferedKeepsTheBlockParked : State.reset.input = [] := rfl

theorem witness_UnusedStateCodeIsRecoveredFrom : ∃ (s : State) (e : Edge) (rest : List Edge),
    s.input = e :: rest ∧ e.stUpset = true ∧ e.rst = false :=
  ⟨{ State.reset with input := [{ Edge.byte 0x81 with stUpset := true }] }, _, [], rfl, rfl, rfl⟩

theorem witness_StepRunsTheSelectedOperation :
    (feed (inCtl .awaitLen) 0x7E).input = Edge.byte 0x7E :: [] ∧
    decode .awaitLen false (Edge.byte 0x7E) = .operation (.len16 false) := by decide

/-- Each clause of the length byte at its boundary: 125, 126, 127; and an edge with `rst`. -/
theorem witness_DecodeFollowsTheOperationTable :
    ((0xFD : Byte).extractLsb' 0 7).toNat ≤ 125 ∧ ((0xFE : Byte).extractLsb' 0 7).toNat = 126 ∧
    ((0xFF : Byte).extractLsb' 0 7).toNat = 127 ∧ Edge.reset.rst = true := by decide

theorem witness_DecodeOfEncodeIsTheOperation :
    (Instr.len7 true 125).wf = true ∧ (Instr.len7 true 125).selectedIn .awaitLen true = true := by decide

theorem witness_EveryByteIsExactlyOneOperation :
    (Instr.len16 true).wf = true ∧ (Instr.len16 true).selectedIn .awaitLen false = true ∧
    encodeByte (Instr.len16 true) = some 0xFE := by decide

theorem witness_ReservedBitsReachNoField :
    (inCtl .awaitFirst).st = .awaitFirst ∧ (0x70 : Byte).getLsbD 7 = (0x00 : Byte).getLsbD 7 ∧
    (0x70 : Byte).extractLsb' 0 4 = (0x00 : Byte).extractLsb' 0 4 := by decide

theorem witness_FirstRecordsOpcodeAndFin : (inCtl .awaitFirst).Inv ∧ (inCtl .awaitFirst).st = .awaitFirst := ⟨rfl, rfl⟩

/-- The clauses of AfterLength: just above the capacity, and at it with each outcome; and the last length bytes. -/
theorem witness_AfterLengthChoosesWhatFollows :
    (∃ s : State, s.capacity = some 4 ∧ 4 < s.dec.length.toNat) ∧
    (∃ s : State, WithinLimit s.capacity s.dec.length.toNat ∧ s.capacity = some 5 ∧ s.dec.masked = true) ∧
    (∃ s : State, WithinLimit s.capacity s.dec.length.toNat ∧ s.capacity = some 0 ∧ s.dec.masked = false ∧ s.dec.length = 0) ∧
    (∃ s : State, WithinLimit s.capacity s.dec.length.toNat ∧ s.capacity = some 5 ∧ s.dec.masked = false ∧ s.dec.length ≠ 0) ∧
    (∃ d : DecoderState, d.extCnt = 1) ∧ ∃ d : DecoderState, d.extCnt = 7 :=
  ⟨⟨{ State.reset with dec := plainBody 5 [], capacity := some 4 }, rfl, by decide⟩,
   ⟨{ State.reset with dec := maskedBody 5 [], capacity := some 5 }, by rintro n ⟨⟩; decide, rfl, rfl⟩,
   ⟨{ State.reset with capacity := some 0 }, by rintro n ⟨⟩; decide, rfl, rfl, rfl⟩,
   ⟨{ State.reset with dec := plainBody 5 [], capacity := some 5 }, by rintro n ⟨⟩; decide, rfl, rfl, by decide⟩,
   ⟨{ inCtl .awaitExt16 with extCnt := 1 }, rfl⟩, ⟨{ inCtl .awaitExt64 with extCnt := 7 }, rfl⟩⟩

theorem witness_ShortLengthByteSetsMaskAndLength : ((0x7D : Byte).extractLsb' 0 7).toNat ≤ 125 := by decide

theorem witness_Indicator126AwaitsTwoLengthBytes : (0xFE : Byte).extractLsb' 0 7 = (126 : BitVec 7) := by decide

theorem witness_Indicator127AwaitsEightLengthBytes : (0x7F : Byte).extractLsb' 0 7 = (127 : BitVec 7) := by decide

/-- `ext_cnt` at both sides of the test, and an invariant state at the largest length. -/
theorem witness_SixteenBitLengthIsCollectedByBytes :
    (inCtl .awaitExt16).extCnt ≠ 1 ∧ ({ inCtl .awaitExt16 with length := 255, extCnt := 1 } : DecoderState).extCnt = 1 ∧
    ({ inCtl .awaitExt16 with length := 255, extCnt := 1 } : DecoderState).Inv := ⟨by decide, rfl, witness_inv_ext16⟩

theorem witness_SixtyFourBitLengthIsCollectedByBytes :
    ({ inCtl .awaitExt64 with extCnt := 6 } : DecoderState).extCnt ≠ 7 ∧
    ({ inCtl .awaitExt64 with length := 0xFFFFFFFFFFFFFF, extCnt := 7 } : DecoderState).extCnt = 7 ∧
    ({ inCtl .awaitExt64 with length := 0xFFFFFFFFFFFFFF, extCnt := 7 } : DecoderState).Inv :=
  ⟨by decide, rfl, witness_inv_ext64⟩

/-- The capacity reached exactly, for LEN7 and for the last byte of each extended length; each way on has its operands. -/
theorem witness_LengthFieldEndsWithinCapacity :
    WithinLimit (some 125) (125 : Indicator).toNat ∧
    (∃ (d : DecoderState) (b : Byte), d.extCnt = 1 ∧ WithinLimit (some 65535) ((d.length <<< 8) ||| b.setWidth 64).toNat ∧
      (d.length <<< 8) ||| b.setWidth 64 = 65535 ∧ d.masked = false) ∧
    (∃ (d : DecoderState) (b : Byte), d.extCnt = 7 ∧ WithinLimit (some 0) ((d.length <<< 8) ||| b.setWidth 64).toNat ∧
      (d.length <<< 8) ||| b.setWidth 64 = 0 ∧ d.masked = false) ∧
    ∃ (d : DecoderState) (b : Byte), d.extCnt = 1 ∧ WithinLimit (some 5) ((d.length <<< 8) ||| b.setWidth 64).toNat ∧
      d.masked = true :=
  ⟨by rintro n ⟨⟩; decide,
   ⟨{ inCtl .awaitExt16 with length := 255, extCnt := 1 }, 255, rfl, by rintro n ⟨⟩; decide, by decide, rfl⟩,
   ⟨{ inCtl .awaitExt64 with extCnt := 7 }, 0, rfl, by rintro n ⟨⟩; decide, by decide, rfl⟩,
   ⟨{ inCtl .awaitExt16 with masked := true, extCnt := 1 }, 5, rfl, by rintro n ⟨⟩; decide, rfl⟩⟩

/-- Both field widths, with the field's largest value at the capacity. -/
theorem witness_ExtendedLengthIsBigEndian :
    (∃ (s : State) (bs : List Byte), s.dec.st = .awaitExt16 ∧ bs.length = 2 ∧ s.dec.length = 0 ∧ s.dec.extCnt = 0 ∧
      s.input = bs.map Edge.byte ++ [] ∧ WithinLimit s.capacity (bigEndianValue bs) ∧ s.capacity = some 65535) ∧
    ∃ (s : State) (bs : List Byte), s.dec.st = .awaitExt64 ∧ bs.length = 8 ∧ s.dec.length = 0 ∧ s.dec.extCnt = 0 ∧
      s.input = bs.map Edge.byte ++ [] ∧ WithinLimit s.capacity (bigEndianValue bs) ∧ s.capacity = none :=
  ⟨⟨{ State.reset with dec := inCtl .awaitExt16, input := [Edge.byte 255, Edge.byte 255], capacity := some 65535 },
     [255, 255], rfl, rfl, rfl, rfl, rfl, by rintro n ⟨⟩; decide, rfl⟩,
   ⟨{ State.reset with dec := inCtl .awaitExt64, input := (List.replicate 8 255).map Edge.byte },
     List.replicate 8 255, rfl, rfl, rfl, rfl, rfl, by rintro n ⟨⟩, rfl⟩⟩

/-- Both field widths, one byte before the last; and eight bytes. -/
theorem witness_LengthAssemblyIsExact :
    (∃ (s : State) (bs : List Byte), s.dec.st = .awaitExt16 ∧ bs.length = 1 ∧ s.dec.length = 0 ∧ s.dec.extCnt = 0 ∧
      s.input = bs.map Edge.byte ++ []) ∧
    (∃ (s : State) (bs : List Byte), s.dec.st = .awaitExt64 ∧ bs.length = 7 ∧ s.dec.length = 0 ∧ s.dec.extCnt = 0 ∧
      s.input = bs.map Edge.byte ++ []) ∧
    (List.replicate 8 (255 : Byte)).length ≤ 8 :=
  ⟨⟨{ State.reset with dec := inCtl .awaitExt16, input := [Edge.byte 255] }, [255], rfl, rfl, rfl, rfl, rfl⟩,
   ⟨{ State.reset with dec := inCtl .awaitExt64, input := (List.replicate 7 255).map Edge.byte },
     List.replicate 7 255, rfl, rfl, rfl, rfl, rfl⟩, by decide⟩

theorem witness_MaskKeyByteGoesToItsSlot :
    (∃ d : DecoderState, d.keyCnt = 3 ∧ d.length = 0) ∧ (∃ d : DecoderState, d.keyCnt = 3 ∧ d.length ≠ 0) ∧
    (∃ d : DecoderState, d.keyCnt ≠ 3) ∧ ∃ d : DecoderState, d.Inv ∧ d.st = .awaitMask :=
  ⟨⟨{ inCtl .awaitMask with keyCnt := 3 }, rfl, rfl⟩, ⟨{ inCtl .awaitMask with keyCnt := 3, length := 1 }, rfl, by decide⟩,
   ⟨{ inCtl .awaitMask with keyCnt := 2 }, by decide⟩, _, witness_inv_mask, rfl⟩

theorem witness_KeyBytesAreStoredInArrivalOrder :
    (∃ (s : State) (k : Vector Byte 4), s.dec.st = .awaitMask ∧ s.dec.keyCnt = 0 ∧
      s.input = k.toList.map Edge.byte ++ [] ∧ s.dec.length ≠ 0) ∧
    ∃ (s : State) (k : Vector Byte 4), s.dec.st = .awaitMask ∧ s.dec.keyCnt = 0 ∧
      s.input = k.toList.map Edge.byte ++ [] ∧ s.dec.length = 0 :=
  ⟨⟨{ State.reset with dec := { inCtl .awaitMask with masked := true, length := 1 }, input := [1, 2, 3, 4].map Edge.byte },
     #v[1, 2, 3, 4], rfl, rfl, rfl, by decide⟩,
   ⟨{ State.reset with dec := { inCtl .awaitMask with masked := true }, input := [1, 2, 3, 4].map Edge.byte },
     #v[1, 2, 3, 4], rfl, rfl, rfl, rfl⟩⟩

/-- The last body byte and one before it. -/
theorem witness_MaskedBodyByteIsUnmaskedAndStored :
    (maskedBody 6 [1, 2, 3, 4, 5]).payloadBuffer.length + 1 = (maskedBody 6 [1, 2, 3, 4, 5]).length.toNat ∧
    (maskedBody 6 [1, 2, 3, 4]).payloadBuffer.length + 1 ≠ (maskedBody 6 [1, 2, 3, 4]).length.toNat := by decide

theorem witness_PlainBodyByteIsStoredUnmodified :
    (plainBody 1 []).payloadBuffer.length + 1 = (plainBody 1 []).length.toNat ∧
    (plainBody 2 []).payloadBuffer.length + 1 ≠ (plainBody 2 []).length.toNat ∧
    (plainBody 1 []).Inv ∧ (plainBody 1 []).st = .awaitBody ∧ (plainBody 1 []).masked = false :=
  ⟨by decide, by decide, witness_inv_body_plain, rfl, rfl⟩

theorem witness_BodyBytesDecodeToThePayload : ∃ (w : List Byte) (s : State), s.dec.st = .awaitBody ∧ w ≠ [] ∧
    s.dec.payloadBuffer.length + w.length = s.dec.length.toNat ∧ s.input = w.map Edge.byte ++ [] ∧ s.dec.masked = true :=
  ⟨[0xC4, 0xD4], { State.reset with dec := maskedBody 6 [1, 2, 3, 4], input := [0xC4, 0xD4].map Edge.byte },
    rfl, by decide, rfl, rfl, rfl⟩

/-- A masked frame with a 64-bit length that is not minimal, and a masked empty frame (Programs C and D). -/
def frameD : WireFrame :=
  { fin := true, rsv := 0, opcode := 1, form := .ext64, key := some #v[0xA1, 0xB2, 0xC3, 0xD4], body := [0xC0, 0xD0, 0xA0, 0xB0, 0xC4, 0xD4] }

/-- Program D's bytes are the frame's. -/
theorem test_frameD_bytes : frameD.bytes =
    [0x81, 0xFF, 0, 0, 0, 0, 0, 0, 0, 6, 0xA1, 0xB2, 0xC3, 0xD4, 0xC0, 0xD0, 0xA0, 0xB0, 0xC4, 0xD4] := by decide

/-- Program D's event. -/
theorem test_frameD_event : frameD.event =
    { opcode := 1, fin := true, masked := true, length := 6, payload := [0x61, 0x62, 0x63, 0x64, 0x65, 0x66] } := by decide

/-- The three length forms at the boundaries of INDICATOR, and a header to be fed (Program D's). -/
theorem witness_HeaderLengthIsTwoPlusExtPlusKey :
    (∃ f : WireFrame, f.wf = true ∧ f.header[1]?.map indicatorField = some 125) ∧
    (∃ f : WireFrame, f.wf = true ∧ f.header[1]?.map indicatorField = some 126) ∧
    (∃ f : WireFrame, f.wf = true ∧ f.header[1]?.map indicatorField = some 127) ∧
    ∃ s : State, frameD.wf = true ∧ frameD.body ≠ [] ∧ WithinLimit s.capacity frameD.body.length ∧
      s.dec = DecoderState.reset ∧ s.input = frameD.header.map Edge.byte ++ [] ∧ s.capacity = some 6 :=
  ⟨⟨{ frameD with form := .short, body := List.replicate 125 0 }, by simp [WireFrame.wf, LengthForm.maxLength],
      by simp [WireFrame.header, LengthForm.indicator, frameD]; decide⟩,
   ⟨{ frameD with form := .ext16 }, by decide, by decide⟩, ⟨frameD, by decide, by decide⟩,
   { State.reset with input := frameD.header.map Edge.byte, capacity := some 6 }, by decide, by decide,
    by rintro n ⟨⟩; decide, rfl, (List.append_nil _).symm, rfl⟩

theorem witness_WholeFrameEmitsExactlyItsEvent : ∃ s : State, frameD.wf = true ∧ WithinLimit s.capacity frameD.body.length ∧
    s.dec = DecoderState.reset ∧ s.input = frameD.bytes.map Edge.byte ++ [] ∧ s.capacity = some 6 :=
  ⟨{ State.reset with input := frameD.bytes.map Edge.byte, capacity := some 6 }, by decide, by rintro n ⟨⟩; decide, rfl,
    (List.append_nil _).symm, rfl⟩

theorem witness_BackToBackFramesEmitEventsInOrder : ∃ s : State,
    (∀ f ∈ [frameD, frameD], f.wf = true ∧ WithinLimit s.capacity f.body.length) ∧ s.dec = DecoderState.reset ∧
    s.input = ([frameD, frameD].flatMap WireFrame.bytes).map Edge.byte ++ [] :=
  ⟨{ State.reset with input := ([frameD, frameD].flatMap WireFrame.bytes).map Edge.byte },
    fun f h => ⟨by revert f h; decide, by rintro n ⟨⟩⟩, rfl, (List.append_nil _).symm⟩

theorem witness_UnmaskingIsInvolutive : ∃ (key : Vector Byte 4) (payload : List Byte) (s : State),
    frameD.key = some key ∧ frameD.body = unmaskFrom key 0 payload ∧ frameD.wf = true ∧
    WithinLimit s.capacity payload.length ∧ s.dec = DecoderState.reset ∧ s.input = frameD.bytes.map Edge.byte ++ [] :=
  ⟨#v[0xA1, 0xB2, 0xC3, 0xD4], [0x61, 0x62, 0x63, 0x64, 0x65, 0x66], { State.reset with input := frameD.bytes.map Edge.byte },
    rfl, by decide, by decide, by rintro n ⟨⟩, rfl, (List.append_nil _).symm⟩

/-- A step that emits and stores, and one that does neither: for the statements about the strobes. -/
theorem witness_strobes :
    (∃ t, step (feed (plainBody 1 []) 0x41) = .next t ∧ t.out.frmValid = true ∧ t.out.payValid = true) ∧
    ∃ t, step (feed (inCtl .awaitFirst) 0x81) = .next t ∧ t.out.frmValid = false ∧ t.out.payValid = false :=
  ⟨⟨_, rfl, rfl, rfl⟩, _, rfl, rfl, rfl⟩

theorem witness_EveryEdgeIsConsumedOnce :
    (∃ t, run 1 (feed (inCtl .awaitFirst) 0x81) = .next t) ∧
    ∃ t, step { State.reset with input := Edge.byte 0x81 :: [Edge.idle] } = .next t := ⟨⟨_, rfl⟩, _, rfl⟩

theorem witness_EventsAreOnlyAppended : ∃ t, run 1 (feed (plainBody 1 []) 0x41) = .next t ∧ t.events ≠ [] :=
  ⟨_, rfl, by decide⟩

/-- For each field, an operation that changes it without completing a frame. -/
theorem witness_FieldsHaveOnlyTheirWriters :
    (∃ t, exec (.first true 0 1) State.reset = .next t ∧ t.events = State.reset.events ∧ t.dec.opcode ≠ 0 ∧ t.dec.fin ≠ false) ∧
    (∃ t, exec (.len16 true) State.reset = .next t ∧ t.events = State.reset.events ∧ t.dec.masked ≠ false) ∧
    (∃ t, exec (.ext64 1) State.reset = .next t ∧ t.events = State.reset.events ∧ t.dec.length ≠ 0) ∧
    (∃ t, exec (.maskKey 1) State.reset = .next t ∧ t.events = State.reset.events ∧ t.dec.maskKey ≠ #v[0, 0, 0, 0]) ∧
    ∃ t, exec (.bodyUnmasked 1) State.reset = .next t ∧ t.events = State.reset.events ∧ t.dec.payloadBuffer ≠ [] :=
  ⟨⟨_, rfl, rfl, by decide, by decide⟩, ⟨_, rfl, rfl, by decide⟩, ⟨_, rfl, rfl, by decide⟩, ⟨_, rfl, rfl, by decide⟩,
   _, rfl, rfl, by decide⟩

/-- Every clause of the header frames, and `key_cnt` changing on the way to the mask key. -/
theorem witness_HeaderOperationsFrame :
    (∃ t, exec (.first true 7 15) State.reset = .next t) ∧ (∃ t, exec (.len16 true) State.reset = .next t) ∧
    (∃ t, exec (.len64 false) State.reset = .next t) ∧
    (∃ t, exec (.len7 true 125) State.reset = .next t ∧ t.events = State.reset.events) ∧
    (∃ t, exec (.ext16 1) State.reset = .next t ∧ t.events = State.reset.events) ∧
    (∃ t, exec (.ext64 1) State.reset = .next t ∧ t.events = State.reset.events) ∧
    (∃ t, exec (.maskKey 1) State.reset = .next t ∧ t.events = State.reset.events) ∧
    (∃ (s t : State), exec (.len7 true 1) s = .next t ∧ t.events = s.events ∧ t.dec.keyCnt ≠ s.dec.keyCnt) ∧
    ∃ (s t : State), exec (.ext16 1) s = .next t ∧ t.events = s.events ∧ t.dec.keyCnt ≠ s.dec.keyCnt :=
  ⟨⟨_, rfl⟩, ⟨_, rfl⟩, ⟨_, rfl⟩, ⟨_, rfl, rfl⟩, ⟨_, rfl, rfl⟩, ⟨_, rfl, rfl⟩, ⟨_, rfl, rfl⟩,
   ⟨{ State.reset with dec := { inCtl .awaitLen with keyCnt := 1 } }, _, rfl, rfl, by decide⟩,
   { State.reset with dec := { inCtl .awaitExt16 with masked := true, keyCnt := 1, extCnt := 1 } }, _, rfl, rfl, by decide⟩

theorem witness_BodyOperationsFrame :
    (∃ t, exec (.bodyMasked 0xC4) (feed (maskedBody 6 [1, 2, 3, 4]) 0) = .next t ∧ t.events = []) ∧
    ∃ t, exec (.bodyUnmasked 0x41) (feed (plainBody 2 []) 0) = .next t ∧ t.events = [] := ⟨⟨_, rfl, rfl⟩, _, rfl, rfl⟩

theorem witness_KeySlotReadsWhatWasWritten : (0 : BitVec 2) ≠ 3 := by decide

theorem witness_StoredBytesAreNeverOverwritten :
    readByte (feed (plainBody 3 [0x41]) 0xFF) 0 = some 0x41 ∧ ∃ t, step (feed (plainBody 3 [0x41]) 0xFF) = .next t :=
  ⟨rfl, _, rfl⟩

/-- A step that emits, after an event that stood before. -/
theorem witness_OpcodeAndFinSteerNothing :
    ∃ t, step { feed (plainBody 1 []) 0x41 with events := [frameD.event] } = .next t ∧ t.out.frmValid = true :=
  ⟨_, rfl, rfl⟩

/-- A refused step after a step that is not. -/
theorem witness_OnlyAnOversizedFrameIsRefused :
    ∃ s t, run 1 s = .next t ∧ step t = .refused .payloadExceedsCapacity :=
  ⟨{ State.reset with capacity := some 4, input := [Edge.byte 0x81, Edge.byte 0x05] }, _, rfl, rfl⟩

theorem witness_UnboundedCapacityNeverRefuses : State.reset.capacity = none := rfl

/-- At the capacity exactly. -/
theorem witness_EveryOperationCompletesWithinCapacity :
    ∀ length, finalLength (.len7 false 125) (inCtl .awaitLen) = some length → WithinLimit (some 125) length.toNat := by
  rintro _ ⟨⟩ n ⟨⟩; decide

end Sys2Proof.Tests
end

