-- ==== Sys2Proof/Proofs/ExtendedLength.lean ====
section
/-! The collection of an extended length (R53, R105, R106): one byte edge is one `collectLength`, a part of the field that
stops before its last byte keeps `length` the big-endian value of the bytes so far, and the last byte ends the field. -/

namespace Sys2Proof.Machine

/-! ### The value of a byte sequence -/

/-- The value of `n` bytes fits `n` bytes (R53). -/
theorem bigEndianValue_lt (bs : List Byte) : bigEndianValue bs < 256 ^ bs.length := by
  induction bs using List.reverseRecOn with
  | nil => simp
  | append_singleton bs b ih =>
    have hb : b.toNat < 256 := b.isLt
    rw [bigEndianValue_append, List.length_append, List.length_singleton, pow_succ]
    omega

/-- Fewer than eight bytes leave the top byte of a length free, so that the next shift is exact (R107). -/
theorem bigEndianValue_lt_of_length_le {bs : List Byte} (h : bs.length ≤ 7) : bigEndianValue bs < 2 ^ 56 :=
  calc bigEndianValue bs < 256 ^ bs.length := bigEndianValue_lt bs
    _ ≤ 256 ^ 7 := Nat.pow_le_pow_right (by decide) h
    _ = 2 ^ 56 := by decide

/-- The shift of the model appends a byte to the value (R53, R107). -/
theorem shiftInByte_bigEndianValue {l : Len} {bs : List Byte} (b : Byte) (hl : l.toNat = bigEndianValue bs)
    (h : bs.length ≤ 7) : (shiftInByte l b).toNat = bigEndianValue (bs ++ [b]) := by
  rw [shiftInByte_toNat l b (hl ▸ bigEndianValue_lt_of_length_le h), hl, bigEndianValue_append]

/-! ### One byte of the field -/

/-- A run of one edge is a step. -/
theorem run_one (s : State) : run 1 s = step s := by
  unfold run; cases step s <;> rfl

/-- A control state that collects an extended length, with the value of `ext_cnt` at its last byte (R105, R106). -/
def CollectsUpTo (st : Ctl) (last : BitVec 3) : Prop :=
  (st = .awaitExt16 ∧ last = 1) ∨ (st = .awaitExt64 ∧ last = 7)

/-- A byte edge in such a control state collects the byte. -/
theorem step_collects {s : State} {last : BitVec 3} {b : Byte} {es : List Edge} (hst : CollectsUpTo s.dec.st last)
    (hin : s.input = Edge.byte b :: es) : step s = collectLength last b (beginEdge s) := by
  obtain ⟨hst, rfl⟩ | ⟨hst, rfl⟩ := hst
  · rw [step_byte hin, hst]; rfl
  · rw [step_byte hin, hst]; rfl

/-- A byte before the last goes into `length` and is counted. -/
theorem collectLength_of_ne {last : BitVec 3} {s : State} (b : Byte) (h : s.dec.extCnt ≠ last) :
    collectLength last b s = .next (setExtCnt (s.dec.extCnt + 1) (setLength (shiftInByte s.dec.length b) s)) :=
  if_neg h

/-- The last byte goes into `length`, and what follows is R100's. -/
theorem collectLength_of_eq {last : BitVec 3} {s : State} (b : Byte) (h : s.dec.extCnt = last) :
    collectLength last b s = afterLength (setExtCnt 0 (setLength (shiftInByte s.dec.length b) s)) :=
  if_pos h

/-! ### The field up to its last byte -/

/-- The state `t` stands in the length field that starts at `s`, with `bs` collected and the edges `rest` to come. -/
structure Collected (s : State) (bs : List Byte) (rest : List Edge) (t : State) : Prop where
  length : t.dec.length.toNat = bigEndianValue bs
  extCnt : t.dec.extCnt.toNat = bs.length
  frame : t.dec = { s.dec with length := t.dec.length, extCnt := t.dec.extCnt }
  events : t.events = s.events
  input : t.input = rest
  capacity : t.capacity = s.capacity

/-- The start of a field. -/
theorem Collected.start {s : State} (hl : s.dec.length = 0) (hc : s.dec.extCnt = 0) : Collected s [] s.input s where
  length := by rw [hl]; rfl
  extCnt := by rw [hc]; rfl
  frame := rfl
  events := rfl
  input := rfl
  capacity := rfl

/-- The control state is the one the field started in. -/
theorem Collected.st {s t : State} {bs : List Byte} {rest : List Edge} (h : Collected s bs rest t) :
    t.dec.st = s.dec.st := by
  rw [h.frame]

/-- One more byte, as long as it is not the last. -/
theorem Collected.step {s t : State} {bs : List Byte} {b : Byte} {rest : List Edge} {last : BitVec 3}
    (h : Collected s bs (Edge.byte b :: rest) t) (hst : CollectsUpTo s.dec.st last) (hlt : bs.length < last.toNat) :
    ∃ u, step t = .next u ∧ Collected s (bs ++ [b]) rest u := by
  have hne : (beginEdge t).dec.extCnt ≠ last := fun e => by
    have hcnt : t.dec.extCnt.toNat = last.toNat := congrArg BitVec.toNat e
    rw [h.extCnt] at hcnt
    omega
  refine ⟨_, (step_collects (h.st ▸ hst) h.input).trans (collectLength_of_ne b hne), ?_⟩
  have hlast : last.toNat < 8 := last.isLt
  exact {
    length := shiftInByte_bigEndianValue b h.length (by omega)
    extCnt := by
      change (t.dec.extCnt + 1).toNat = (bs ++ [b]).length
      rw [BitVec.toNat_add, h.extCnt, List.length_append, List.length_singleton]
      exact Nat.mod_eq_of_lt (show bs.length + 1 < 8 by omega)
    frame := congrArg (fun d : DecoderState =>
      { d with length := shiftInByte t.dec.length b, extCnt := t.dec.extCnt + 1 }) h.frame
    events := h.events
    input := congrArg List.tail h.input
    capacity := h.capacity }

/-- The run over the bytes of a field that stops before the last one. -/
theorem run_collects {s : State} {last : BitVec 3} (hst : CollectsUpTo s.dec.st last) (hl : s.dec.length = 0)
    (hc : s.dec.extCnt = 0) (bs : List Byte) (rest : List Edge) (hle : bs.length ≤ last.toNat)
    (hin : s.input = bs.map Edge.byte ++ rest) :
    ∃ t, run bs.length s = .next t ∧ Collected s bs rest t := by
  induction bs using List.reverseRecOn generalizing rest with
  | nil => exact ⟨s, rfl, by simpa [hin] using Collected.start hl hc⟩
  | append_singleton bs b ih =>
    rw [List.length_append, List.length_singleton] at hle ⊢
    obtain ⟨t, hrun, ht⟩ := ih (Edge.byte b :: rest) (by omega) (by simpa using hin)
    obtain ⟨u, hstep, hu⟩ := ht.step hst hle
    exact ⟨u, by rw [run_add hrun, run_one, hstep], hu⟩

/-! ### The last byte -/

/-- How a length field ends does not depend on the decoder fields before its last byte: `d` stands in their place. -/
theorem LengthFieldEnds.with_dec {s : State} {d : DecoderState} {r : Result} (d' : DecoderState)
    (h : LengthFieldEnds s d r) : LengthFieldEnds { s with dec := d' } d r :=
  ⟨h.toMask, h.toBody, h.toFirst⟩

/-- The outcome `r` of an extended-length field that starts at `s` and holds `value`: the field ends with that length, in
the surroundings of `s` with the field's bytes taken from the input and both strobes 0. -/
def ExtendedFieldEnds (s : State) (value : Nat) (rest : List Edge) (r : Result) : Prop :=
  ∃ (u t : State) (d : DecoderState), r = .next t ∧ d.length.toNat = value ∧
    d = { s.dec with length := d.length } ∧ u.dec = s.dec ∧ u.events = s.events ∧ u.input = rest ∧
    u.capacity = s.capacity ∧ u.out.frmValid = false ∧ u.out.payValid = false ∧ LengthFieldEnds u d (.next t)

/-- The last byte of a field within the capacity: `length` is the value of all its bytes, and the field ends (R53, R100). -/
theorem Collected.last {s v : State} {bs : List Byte} {b : Byte} {rest : List Edge} {last : BitVec 3}
    (h : Collected s bs (Edge.byte b :: rest) v) (hst : CollectsUpTo s.dec.st last) (hc : s.dec.extCnt = 0)
    (hlen : bs.length = last.toNat) (hcap : WithinLimit s.capacity (bigEndianValue (bs ++ [b]))) :
    ExtendedFieldEnds s (bigEndianValue (bs ++ [b])) rest (Machine.step v) := by
  have heq : (beginEdge v).dec.extCnt = last := BitVec.eq_of_toNat_eq (h.extCnt.trans hlen)
  have hlast : last.toNat < 8 := last.isLt
  have hval : (shiftInByte v.dec.length b).toNat = bigEndianValue (bs ++ [b]) :=
    shiftInByte_bigEndianValue b h.length (by omega)
  have hfits : fits v.capacity (shiftInByte v.dec.length b) = true := by
    rw [fits_iff, hval, h.capacity]; exact hcap
  obtain ⟨t, ht, hends⟩ :=
    afterLength_completes (s := setExtCnt 0 (setLength (shiftInByte v.dec.length b) (beginEdge v))) hfits
  have hframe : { v.dec with length := shiftInByte v.dec.length b, extCnt := 0 } =
      { s.dec with length := shiftInByte v.dec.length b } := by
    rw [h.frame, ← hc]
  exact ⟨{ beginEdge v with dec := s.dec }, t, _,
    (step_collects (h.st ▸ hst) h.input).trans ((collectLength_of_eq b heq).trans ht),
    hval, hframe, rfl, h.events, congrArg List.tail h.input, h.capacity, rfl, rfl, hends.with_dec s.dec⟩

/-- A whole extended-length field within the capacity, for either width: `n` bytes where `ext_cnt` counts to `n - 1`. -/
theorem run_extendedLength {s : State} {last : BitVec 3} (hst : CollectsUpTo s.dec.st last) (hl : s.dec.length = 0)
    (hc : s.dec.extCnt = 0) {bs : List Byte} {rest : List Edge} (hlen : bs.length = last.toNat + 1)
    (hin : s.input = bs.map Edge.byte ++ rest) (hcap : WithinLimit s.capacity (bigEndianValue bs)) :
    ExtendedFieldEnds s (bigEndianValue bs) rest (run bs.length s) := by
  obtain rfl | ⟨init, b, rfl⟩ := bs.eq_nil_or_concat'
  · cases hlen
  · have hinit : init.length = last.toNat := by simpa using hlen
    obtain ⟨v, hrun, hv⟩ := run_collects hst hl hc init (Edge.byte b :: rest) hinit.le (by simpa using hin)
    rw [List.length_append, List.length_singleton, run_add hrun, run_one]
    exact hv.last hst hc hinit hcap

/-- Settles O22: the bytes before the last are collected one by one, and the last one ends the field; the two widths
differ only in the value of `ext_cnt` at the last byte. -/
theorem extendedLengthIsBigEndian : Obligations.ExtendedLengthIsBigEndian := by
  intro s bs rest hfield hl hc hin hcap
  obtain ⟨last, hst, hlen⟩ : ∃ last : BitVec 3, CollectsUpTo s.dec.st last ∧ bs.length = last.toNat + 1 := by
    obtain ⟨hst, hlen⟩ | ⟨hst, hlen⟩ := hfield
    · exact ⟨1, .inl ⟨hst, rfl⟩, hlen⟩
    · exact ⟨7, .inr ⟨hst, rfl⟩, hlen⟩
  refine ⟨?_, run_extendedLength hst hl hc hlen hin hcap⟩
  have hlast : last.toNat < 8 := last.isLt
  calc bigEndianValue bs < 256 ^ bs.length := bigEndianValue_lt bs
    _ ≤ 256 ^ 8 := Nat.pow_le_pow_right (by decide) (by omega)
    _ = 2 ^ 64 := by decide

end Sys2Proof.Machine
end

