-- ==== Sys2Proof/Proofs/FieldsAndTable.lean ====
section
/-! The fields of the header bytes as mask expressions (R73, R74), and the operation each control state decodes a byte to
(R81). -/

namespace Sys2Proof

/-! ### Fields as mask expressions -/

/-- The low `k` bits of a byte are what the mask of `k` ones leaves of it. -/
theorem setWidth_lowBits (b : Byte) {k : Nat} (hk : k ≤ 8) :
    (b.extractLsb' 0 k).setWidth 8 = b &&& BitVec.ofNat 8 (2 ^ k - 1) := by
  have hmask : 2 ^ k - 1 < 2 ^ 8 := by
    have hpow : 2 ^ k ≤ 2 ^ 8 := Nat.pow_le_pow_right (by decide) hk
    omega
  have hlow : b.toNat % 2 ^ k < 2 ^ 8 := (Nat.mod_le _ _).trans_lt b.isLt
  apply BitVec.eq_of_toNat_eq
  rw [BitVec.toNat_setWidth, BitVec.extractLsb'_toNat, Nat.shiftRight_zero, Nat.mod_eq_of_lt hlow, BitVec.toNat_and,
    BitVec.toNat_ofNat, Nat.mod_eq_of_lt hmask, Nat.and_two_pow_sub_one_eq_mod]

/-- Bit 7 of a byte is set exactly when its mask leaves something of it. -/
theorem getLsbD_seven_eq_mask (b : Byte) : b.getLsbD 7 = (b &&& 0x80 != 0) := by
  have hand : b &&& 0x80 = if b.getLsbD 7 then 0x80 else 0 := BitVec.and_twoPow b 7
  rw [hand]
  cases b.getLsbD 7
  · rfl
  · rfl

/-- `opcode = b & 0x0F` (R73). -/
theorem opcodeField_eq_mask (b : Byte) : (opcodeField b).setWidth 8 = b &&& 0x0F := setWidth_lowBits b (by decide)

/-- `indicator = b & 0x7F` (R74). -/
theorem indicatorField_eq_mask (b : Byte) : (indicatorField b).setWidth 8 = b &&& 0x7F := setWidth_lowBits b (by decide)

/-! ### The three operations of a length byte -/

/-- LEN7's row (R81). -/
theorem decodeLengthByte_of_le {b : Byte} (h : (indicatorField b).toNat ≤ 125) :
    decodeLengthByte b = .len7 (maskField b) (indicatorField b) :=
  if_pos h

/-- LEN16's row (R81). -/
theorem decodeLengthByte_of_eq_126 {b : Byte} (h : (indicatorField b).toNat = 126) :
    decodeLengthByte b = .len16 (maskField b) := by
  have h126 : indicatorField b = 126 := BitVec.eq_of_toNat_eq h
  unfold decodeLengthByte
  rw [h126]
  rfl

/-- LEN64's row (R81). -/
theorem decodeLengthByte_of_eq_127 {b : Byte} (h : (indicatorField b).toNat = 127) :
    decodeLengthByte b = .len64 (maskField b) := by
  have h127 : indicatorField b = 127 := BitVec.eq_of_toNat_eq h
  unfold decodeLengthByte
  rw [h127]
  rfl

/-- `rst` has priority over everything else on the edge, in every control state (R81, R191). -/
theorem decode_of_rst (st : Ctl) (masked : Bool) {e : Edge} (h : e.rst = true) :
    decode st masked e = .operation .reset :=
  if_pos h

/-! ### The obligations -/

/-- Settles O7: the fields are low bits and a top bit, and FIRST's meaning does not name the bits 6:4. -/
theorem fieldsAreTheSourceExpressions : Obligations.FieldsAreTheSourceExpressions := by
  refine ⟨fun b => ⟨opcodeField_eq_mask b, getLsbD_seven_eq_mask b, getLsbD_seven_eq_mask b, indicatorField_eq_mask b, ?_⟩,
    fun s fin rsv rsv' opcode => ?_⟩
  · exact Nat.le_of_lt_succ (indicatorField b).isLt
  · show Machine.execFirst fin rsv opcode s = Machine.execFirst fin rsv' opcode s
    rfl

/-- Settles O8, row by row. -/
theorem decodeFollowsTheOperationTable : Obligations.DecodeFollowsTheOperationTable := by
  intro masked b
  exact ⟨decodeByte_awaitFirst masked b,
    decodeLengthByte_of_le, decodeLengthByte_of_eq_126, decodeLengthByte_of_eq_127,
    decodeByte_awaitExt16 masked b, decodeByte_awaitExt64 masked b, decodeByte_awaitMask masked b,
    decodeByte_awaitBody_masked b, decodeByte_awaitBody_unmasked b,
    fun st _ hrst => decode_of_rst st masked hrst⟩

end Sys2Proof
end

