-- ==== Sys2Proof/Proofs/HeaderOperations.lean ====
section
/-! The header operations (R100 to R106): what each leaves in the state, written out, and the bound the invariant of R30
puts on a length that is still being collected. -/

namespace Sys2Proof.Machine

/-! ### What the invariant says of a header state -/

/-- Between two frames every field holds its reset value (R30). -/
theorem DecoderState.Inv.eq_reset {d : DecoderState} (h : d.Inv) (hst : d.st = .awaitFirst) :
    d = DecoderState.reset := by
  unfold DecoderState.Inv at h
  rwa [hst] at h

/-- A partial length fits the `ext_cnt` bytes it was made of, and `ext_cnt` is at most `last` (R30). -/
theorem DecoderState.Inv.partialLength {d : DecoderState} {last : BitVec 3} (h : d.Inv) (hst : CollectsUpTo d.st last) :
    d.extCnt.toNat ≤ last.toNat ∧ d.length.toNat < 256 ^ d.extCnt.toNat := by
  unfold DecoderState.Inv at h
  obtain ⟨hst, rfl⟩ | ⟨hst, rfl⟩ := hst
  · rw [hst] at h
    exact h.2
  · rw [hst] at h
    exact h.2

/-- A length still being collected has its top byte free, so the next shift is exact (R105 to R107). -/
theorem DecoderState.Inv.shiftInByte_exact {d : DecoderState} {last : BitVec 3} (h : d.Inv)
    (hst : CollectsUpTo d.st last) (b : Byte) : (shiftInByte d.length b).toNat = d.length.toNat * 256 + b.toNat := by
  obtain ⟨hcnt, hlen⟩ := h.partialLength hst
  have hlast : last.toNat < 8 := last.isLt
  apply shiftInByte_toNat
  calc d.length.toNat < 256 ^ d.extCnt.toNat := hlen
    _ ≤ 256 ^ 7 := Nat.pow_le_pow_right (by decide) (by omega)
    _ = 2 ^ 56 := by decide

/-! ### The effect of each operation -/

/-- FIRST (R101). -/
theorem exec_first (fin : Bool) (rsv : BitVec 3) (opcode : Opcode) (s : State) : exec (.first fin rsv opcode) s =
    .next { s with dec := { s.dec with opcode := opcode, fin := fin, st := .awaitLen } } := rfl

/-- LEN7 (R102). -/
theorem exec_len7 (mask : Bool) (indicator : Indicator) (s : State) : exec (.len7 mask indicator) s =
    afterLength { s with dec := { s.dec with masked := mask, length := indicator.setWidth 64 } } := rfl

/-- LEN16 (R103). -/
theorem exec_len16 (mask : Bool) (s : State) : exec (.len16 mask) s =
    .next { s with dec := { s.dec with masked := mask, length := 0, extCnt := 0, st := .awaitExt16 } } := rfl

/-- LEN64 (R104). -/
theorem exec_len64 (mask : Bool) (s : State) : exec (.len64 mask) s =
    .next { s with dec := { s.dec with masked := mask, length := 0, extCnt := 0, st := .awaitExt64 } } := rfl

/-- EXT16 collects up to its second byte (R105). -/
theorem exec_ext16 (b : Byte) (s : State) : exec (.ext16 b) s = collectLength 1 b s := rfl

/-- EXT64 collects up to its eighth byte (R106). -/
theorem exec_ext64 (b : Byte) (s : State) : exec (.ext64 b) s = collectLength 7 b s := rfl

/-! ### The three ways on after a length field, and the refusal -/

/-- A length above a finite capacity is refused (R100, R162). -/
theorem afterLength_of_capacity_lt {s : State} {n : Nat} (hcap : s.capacity = some n) (hlt : n < s.dec.length.toNat) :
    afterLength s = .refused .payloadExceedsCapacity := by
  have hfits : fits s.capacity s.dec.length = false := by
    rw [Bool.eq_false_iff, ne_eq, fits_iff]
    exact fun hle => absurd (hle n hcap) (by omega)
  exact (afterLength_refused_iff s _).mpr ⟨hfits, rfl⟩

/-- An unmasked empty frame within the capacity completes at once (R100, `90_conflicts.md` C2). -/
theorem afterLength_of_empty {s : State} (hfits : fits s.capacity s.dec.length = true) (hmasked : s.dec.masked = false)
    (hlen : s.dec.length = 0) : afterLength s = .next (complete s) := by
  obtain ⟨t, ht, -⟩ := afterLength_completes hfits
  obtain ⟨-, ⟨hmasked', -⟩ | ⟨-, -, rfl⟩ | ⟨-, hlen', -⟩⟩ := afterLength_next ht
  · exact absurd hmasked' (by simp [hmasked])
  · exact ht
  · exact absurd hlen hlen'

/-! ### The obligations -/

/-- Settles O19: EXT16 is the collection up to `ext_cnt` = 1, and the invariant leaves the top byte of `length` free. -/
theorem sixteenBitLengthIsCollectedByBytes : Obligations.SixteenBitLengthIsCollectedByBytes := by
  refine ⟨decodeByte_awaitExt16, fun s b => ?_, fun d b hinv hst => hinv.shiftInByte_exact (.inl ⟨hst, rfl⟩) b⟩
  rw [exec_ext16]
  exact ⟨collectLength_of_eq b, collectLength_of_ne b⟩

/-- Settles O20: EXT64 is the collection up to `ext_cnt` = 7, and the invariant leaves the top byte of `length` free. -/
theorem sixtyFourBitLengthIsCollectedByBytes : Obligations.SixtyFourBitLengthIsCollectedByBytes := by
  refine ⟨decodeByte_awaitExt64, fun s b => ?_, fun d b hinv hst => hinv.shiftInByte_exact (.inr ⟨hst, rfl⟩) b⟩
  rw [exec_ext64]
  exact ⟨collectLength_of_eq b, collectLength_of_ne b⟩

/-- Settles O14. -/
theorem firstRecordsOpcodeAndFin : Obligations.FirstRecordsOpcodeAndFin :=
  ⟨decodeByte_awaitFirst, fun s fin rsv opcode => exec_first fin rsv opcode s, fun _ hinv hst => hinv.eq_reset hst⟩

/-- Settles O15: the three operations end in `AfterLength()`, whose outcome follows capacity, `masked` and `length`. -/
theorem afterLengthChoosesWhatFollows : Obligations.AfterLengthChoosesWhatFollows := by
  constructor
  · rintro s mask indicator b d rfl
    rw [exec_len7, exec_ext16, exec_ext64]
    exact ⟨rfl, collectLength_of_eq b, collectLength_of_eq b⟩
  · refine fun s => ⟨fun n hcap hlt => afterLength_of_capacity_lt hcap hlt, fun hlimit => ?_⟩
    have hfits : fits s.capacity s.dec.length = true := (fits_iff _ _).mpr hlimit
    have hends := afterLength_ends hfits
    exact ⟨hends.toMask, afterLength_of_empty hfits, hends.toBody⟩

/-- Settles O16: the indicator selects LEN7's row, and LEN7 ends in `AfterLength()`. -/
theorem shortLengthByteSetsMaskAndLength : Obligations.ShortLengthByteSetsMaskAndLength :=
  ⟨fun _ _ hle => decodeLengthByte_of_le hle, fun s mask indicator => exec_len7 mask indicator s⟩

/-- Settles O17: the indicator selects LEN16's row. -/
theorem indicator126AwaitsTwoLengthBytes : Obligations.Indicator126AwaitsTwoLengthBytes :=
  ⟨fun _ _ h126 => decodeLengthByte_of_eq_126 (congrArg BitVec.toNat h126), fun s mask => exec_len16 mask s⟩

/-- Settles O18: the indicator selects LEN64's row. -/
theorem indicator127AwaitsEightLengthBytes : Obligations.Indicator127AwaitsEightLengthBytes :=
  ⟨fun _ _ h127 => decodeLengthByte_of_eq_127 (congrArg BitVec.toNat h127), fun s mask => exec_len64 mask s⟩

end Sys2Proof.Machine
end

