-- ==== Sys2Proof/Proofs/PayloadOperations.lean ====
section
/-! The payload operations and the completion of a frame (R120 to R123): what each leaves in the state, written out, and
what the invariant of R30 says of `masked` and the key in the two control states they run in. -/

namespace Sys2Proof.Machine

/-! ### What the invariant says of a payload state -/

/-- A key is collected for a masked frame only (R30, R120). -/
theorem DecoderState.Inv.masked_of_awaitMask {d : DecoderState} (h : d.Inv) (hst : d.st = .awaitMask) :
    d.masked = true := by
  unfold DecoderState.Inv at h
  rw [hst] at h
  obtain ⟨-, hmasked, -⟩ := h
  exact hmasked

/-- The body of an unmasked frame is read with the key at its reset value (R30, R122). -/
theorem DecoderState.Inv.maskKey_of_plainBody {d : DecoderState} (h : d.Inv) (hst : d.st = .awaitBody)
    (hplain : d.masked = false) : d.maskKey = #v[0, 0, 0, 0] := by
  unfold DecoderState.Inv at h
  rw [hst] at h
  obtain ⟨-, -, -, hkey⟩ := h
  exact hkey hplain

/-! ### The effect of each operation -/

/-- `Complete()` is the emission of the frame's event, then per-frame clear (R123). -/
theorem complete_eq (s : State) : complete s = clearFields (emit s.dec.event s) := rfl

/-- The fourth key byte of an empty frame completes it (R120). -/
theorem exec_maskKey_last_of_empty {s : State} (b : Byte) (hcnt : s.dec.keyCnt = 3) (hlen : s.dec.length = 0) :
    exec (.maskKey b) s = .next (complete (setKeyCnt 0 (keyWrite s.dec.keyCnt b s))) :=
  (if_pos hcnt).trans (if_pos hlen)

/-- The fourth key byte of any other frame ends the header (R120). -/
theorem exec_maskKey_last_of_nonempty {s : State} (b : Byte) (hcnt : s.dec.keyCnt = 3) (hlen : s.dec.length ≠ 0) :
    exec (.maskKey b) s = .next (goTo .awaitBody (setKeyCnt 0 (keyWrite s.dec.keyCnt b s))) :=
  (if_pos hcnt).trans (if_neg hlen)

/-- A key byte before the fourth is stored and counted (R120). -/
theorem exec_maskKey_before_last {s : State} (b : Byte) (hcnt : s.dec.keyCnt ≠ 3) :
    exec (.maskKey b) s = .next (setKeyCnt (s.dec.keyCnt + 1) (keyWrite s.dec.keyCnt b s)) :=
  if_neg hcnt

/-- A body byte before the last is stored, and the frame goes on (R121, R122). -/
theorem exec_stores_before_last {i : Instr} {s : State} {v : Byte} (h : Stores i s v)
    (hpos : s.dec.pos + 1 ≠ s.dec.length.toNat) : exec i s = .next (bufAppend v s) := by
  have hgoesOn : finishBody s.dec.pos (bufAppend v s) = bufAppend v s := if_neg hpos
  rw [exec_of_stores h, hgoesOn]

/-- The last body byte is stored, and the frame completes with it (R121, R122). -/
theorem exec_stores_last {i : Instr} {s : State} {v : Byte} (h : Stores i s v)
    (hpos : s.dec.pos + 1 = s.dec.length.toNat) : exec i s = .next (complete (bufAppend v s)) := by
  have hends : finishBody s.dec.pos (bufAppend v s) = complete (bufAppend v s) := if_pos hpos
  rw [exec_of_stores h, hends]

/-! ### The obligations -/

/-- Settles O24: the three ways on of MASKKEY, each written out. -/
theorem maskKeyByteGoesToItsSlot : Obligations.MaskKeyByteGoesToItsSlot := by
  refine ⟨decodeByte_awaitMask, ?_, fun _ hinv hst => hinv.masked_of_awaitMask hst⟩
  rintro s b key rfl
  exact ⟨exec_maskKey_last_of_empty b, exec_maskKey_last_of_nonempty b, exec_maskKey_before_last b⟩

/-- Settles O26: BODY_MASKED stores the unmasked byte, and the last one completes the frame. -/
theorem maskedBodyByteIsUnmaskedAndStored : Obligations.MaskedBodyByteIsUnmaskedAndStored := by
  refine ⟨decodeByte_awaitBody_masked, ?_⟩
  rintro s u b v p rfl rfl rfl
  have hstores : Stores (.bodyMasked b) s (b ^^^ keyByteAt s.dec.maskKey s.dec.pos) := ⟨b, .inl ⟨rfl, rfl⟩⟩
  exact ⟨exec_stores_before_last hstores, exec_stores_last hstores⟩

/-- Settles O27: BODY_UNMASKED stores the byte as it is, and the last one completes the frame. -/
theorem plainBodyByteIsStoredUnmodified : Obligations.PlainBodyByteIsStoredUnmodified := by
  refine ⟨decodeByte_awaitBody_unmasked, ?_, fun _ hinv hst hplain => hinv.maskKey_of_plainBody hst hplain⟩
  rintro s u b p rfl rfl
  have hstores : Stores (.bodyUnmasked b) s b := ⟨b, .inr ⟨rfl, rfl⟩⟩
  exact ⟨exec_stores_before_last hstores, exec_stores_last hstores⟩

/-- Settles O28: the event of the frame is emitted, and per-frame clear gives every field its reset value. -/
theorem completionEmitsAndClears : Obligations.CompletionEmitsAndClears := by
  intro s
  rw [complete_eq]
  rfl

end Sys2Proof.Machine
end

