-- ==== Sys2Proof/Proofs/Refusals.lean ====
section
/-! Faults and refusals (R160, R162): which steps are refused, and what a refused step makes of the rest of a run. -/

namespace Sys2Proof.Machine

/-- The block raises no exception (R160): there is no reason to fault with. -/
theorem step_ne_fault (s : State) (r : Fault) : step s ≠ .fault r := nomatch r

/-- Only an operation can be refused: an idle edge and a recovery go on (R185, R36). -/
theorem step_refused_iff_exec (s : State) (r : Refusal) :
    step s = .refused r ↔ ∃ i, nextAction s = .operation i ∧ exec i (beginEdge s) = .refused r := by
  cases ha : nextAction s with
  | operation i => rw [step_operation ha]; simp
  | idle => rw [step_idle ha]; simp
  | recover => rw [step_recover ha]; simp

/-- A step is refused exactly at the end of a length field above a finite capacity (R100, R162). -/
theorem step_refused_iff (s : State) (r : Refusal) :
    step s = .refused r ↔ r = .payloadExceedsCapacity ∧
      ∃ i length n, nextAction s = .operation i ∧ finalLength i s.dec = some length ∧ s.capacity = some n ∧
        n < length.toNat := by
  rw [step_refused_iff_exec]
  constructor
  · rintro ⟨i, hi, hexec⟩
    obtain ⟨hr, length, n, hlength, hcap, hlt⟩ := (exec_refused_iff i (beginEdge s) r).mp hexec
    exact ⟨hr, i, length, n, hi, hlength, hcap, hlt⟩
  · rintro ⟨hr, i, length, n, hi, hlength, hcap, hlt⟩
    exact ⟨i, hi, (exec_refused_iff i (beginEdge s) r).mpr ⟨hr, length, n, hlength, hcap, hlt⟩⟩

/-- A run whose first step is refused is refused, however many edges it was to take (R162). -/
theorem run_succ_of_refused {s : State} {r : Refusal} (h : step s = .refused r) (n : Nat) :
    run (n + 1) s = .refused r := by
  simp only [run, h]

/-- A run that comes to a refused step is refused, however long it goes on: "the refusal is kept for the whole run"
(R162). -/
theorem run_of_reaches_refused {m : Nat} {s t : State} {r : Refusal} (hrun : run m s = .next t)
    (h : step t = .refused r) (n : Nat) : run (m + 1 + n) s = .refused r :=
  calc run (m + 1 + n) s = run (m + (n + 1)) s := by rw [Nat.add_assoc, Nat.add_comm 1 n]
    _ = run (n + 1) t := run_add hrun
    _ = .refused r := run_succ_of_refused h n

/-- Settles O48: there is no fault, the refused steps are those of `exec_refused_iff`, and runs stop at a refusal. -/
theorem onlyAnOversizedFrameIsRefused : Obligations.OnlyAnOversizedFrameIsRefused :=
  ⟨step_ne_fault, step_refused_iff, fun _ n _ _ _ hrun h => run_of_reaches_refused hrun h n⟩

end Sys2Proof.Machine
end

section
/-! Edges that feed no byte (R180, R185, R191): what a reset edge and an idle edge select and leave in the state, and
what is kept over any number of idle edges. -/

namespace Sys2Proof.Machine

/-! ### A reset edge -/

/-- RESET clears every field and every output register (R180, R33). -/
theorem exec_reset (s : State) : exec .reset s = .next { clearFields s with out := Outputs.reset } := rfl

/-- An edge with `rst` = 1 runs RESET, whatever else it carries (R191). -/
theorem step_of_rst {s : State} {e : Edge} {rest : List Edge} (hin : s.input = e :: rest) (hrst : e.rst = true) :
    step s = .next { clearFields (beginEdge s) with out := Outputs.reset } :=
  calc step s = exec .reset (beginEdge s) :=
        step_operation ((nextAction_cons hin).trans (decode_of_rst s.dec.st s.dec.masked hrst))
    _ = .next { clearFields (beginEdge s) with out := Outputs.reset } := exec_reset (beginEdge s)

/-! ### Idle edges -/

/-- An edge is inactive exactly when it carries no `rst`, no byte and no upset. -/
theorem edgeActive_eq_false_iff (e : Edge) :
    edgeActive e = false ↔ e.rst = false ∧ e.inValid = false ∧ e.stUpset = false := by
  simp only [edgeActive, Bool.or_eq_false_iff]
  tauto

/-- An inactive edge performs no step, in every control state (R185). -/
theorem decode_of_inactive (st : Ctl) (masked : Bool) {e : Edge} (h : edgeActive e = false) :
    decode st masked e = .idle := by
  obtain ⟨hrst, hvalid, hupset⟩ := (edgeActive_eq_false_iff e).mp h
  simp [decode, hrst, hvalid, hupset]

/-- An inactive edge is taken from the input and does nothing else (R185). -/
theorem step_of_inactive {s : State} {e : Edge} {rest : List Edge} (hin : s.input = e :: rest)
    (h : edgeActive e = false) : step s = .next (beginEdge s) :=
  step_idle ((nextAction_cons hin).trans (decode_of_inactive s.dec.st s.dec.masked h))

/-- The state `t` is `s` held: the same decoder state, events and capacity, with the edges `rest` to come (R185). -/
structure HeldUntil (s : State) (rest : List Edge) (t : State) : Prop where
  dec : t.dec = s.dec
  events : t.events = s.events
  capacity : t.capacity = s.capacity
  input : t.input = rest

/-- Any number of inactive edges holds the state, and the last of them leaves both strobes at 0 (R185). -/
theorem run_of_inactive {s : State} (es rest : List Edge) (hidle : ∀ e ∈ es, edgeActive e = false)
    (hin : s.input = es ++ rest) :
    ∃ t, run es.length s = .next t ∧ HeldUntil s rest t ∧
      (es ≠ [] → t.out.frmValid = false ∧ t.out.payValid = false) := by
  induction es using List.reverseRecOn generalizing rest with
  | nil => exact ⟨s, rfl, ⟨rfl, rfl, rfl, hin⟩, fun hne => absurd rfl hne⟩
  | append_singleton es e ih =>
    obtain ⟨t, hrun, ht, -⟩ :=
      ih (e :: rest) (fun e' he' => hidle e' (List.mem_append_left [e] he')) (by simpa using hin)
    have hstep : step t = .next (beginEdge t) := step_of_inactive ht.input (hidle e (by simp))
    have hheld : HeldUntil s rest (beginEdge t) := ⟨ht.dec, ht.events, ht.capacity, congrArg List.tail ht.input⟩
    refine ⟨beginEdge t, ?_, hheld, fun _ => ⟨rfl, rfl⟩⟩
    rw [List.length_append, List.length_singleton, run_add hrun, run_one, hstep]

/-! ### The obligations -/

/-- Settles O3, by induction on the idle edges from the last one back. -/
theorem idleEdgesHoldEveryField : Obligations.IdleEdgesHoldEveryField := by
  intro es rest s hidle hin
  obtain ⟨t, hrun, hheld, hstrobes⟩ :=
    run_of_inactive es rest (fun e he => (edgeActive_eq_false_iff e).mpr (hidle e he)) hin
  exact ⟨t, hrun, hheld.dec, hheld.events, hheld.capacity, hheld.input, hstrobes⟩

/-- Settles O2: `rst` selects RESET whatever else the edge carries, and RESET leaves the edges to come alone. -/
theorem resetEdgeWinsOverByte : Obligations.ResetEdgeWinsOverByte := by
  intro s e rest hin hrst
  exact ⟨decode_of_rst s.dec.st s.dec.masked hrst, _, step_of_rst hin hrst, rfl, rfl, rfl, rfl, rfl, rfl,
    congrArg List.tail hin, rfl⟩

end Sys2Proof.Machine
end

section
/-! Decoding and encoding (30_encoding.md): the two agree in both directions, so that in every control state the bytes
and the operations it selects are in bijection. -/

namespace Sys2Proof

/-! ### The fields of a first and of a second byte -/

/-- The three fields of a first byte, joined, are the byte (R73). -/
theorem firstFields_append (b : Byte) : BitVec.ofBool (finField b) ++ rsvField b ++ opcodeField b = b := by
  revert b; decide

/-- The two fields of a second byte, joined, are the byte (R74). -/
theorem lengthFields_append (b : Byte) : BitVec.ofBool (maskField b) ++ indicatorField b = b := by
  revert b; decide

/-- The fin flag an encoder put into a first byte (R73). -/
@[simp] theorem finField_append (fin : Bool) (rsv : BitVec 3) (opcode : Opcode) :
    finField (BitVec.ofBool fin ++ rsv ++ opcode) = fin := by
  revert fin rsv opcode; decide

/-- The bits 6:4 an encoder put into a first byte (R73). -/
@[simp] theorem rsvField_append (fin : Bool) (rsv : BitVec 3) (opcode : Opcode) :
    rsvField (BitVec.ofBool fin ++ rsv ++ opcode) = rsv := by
  revert fin rsv opcode; decide

/-- The opcode an encoder put into a first byte (R73). -/
@[simp] theorem opcodeField_append (fin : Bool) (rsv : BitVec 3) (opcode : Opcode) :
    opcodeField (BitVec.ofBool fin ++ rsv ++ opcode) = opcode :=
  BitVec.extractLsb'_append_eq_right

/-! ### Decoding what was encoded -/

/-- The byte of an operation is read back as the operation, in every control state that selects it (R81). -/
theorem decodeByte_of_encodeByte {i : Instr} {st : Ctl} {masked : Bool} {b : Byte} (hwf : i.wf = true)
    (hsel : i.selectedIn st masked = true) (henc : encodeByte i = some b) : decodeByte st masked b = i := by
  cases i with
  | first fin rsv opcode =>
    obtain rfl : st = .awaitFirst := of_decide_eq_true hsel
    cases henc
    rw [decodeByte_awaitFirst, finField_append, rsvField_append, opcodeField_append]
  | len7 mask indicator =>
    obtain rfl : st = .awaitLen := of_decide_eq_true hsel
    cases henc
    have hle : indicator ≤ Config.shortLenMax := of_decide_eq_true hwf
    rw [decodeByte_awaitLen, decodeLengthByte_of_le (by rw [indicatorField_append]; exact hle), maskField_append,
      indicatorField_append]
  | len16 mask =>
    obtain rfl : st = .awaitLen := of_decide_eq_true hsel
    cases henc
    rw [decodeByte_awaitLen, decodeLengthByte_of_eq_126 (by rw [indicatorField_append]; rfl), maskField_append]
  | len64 mask =>
    obtain rfl : st = .awaitLen := of_decide_eq_true hsel
    cases henc
    rw [decodeByte_awaitLen, decodeLengthByte_of_eq_127 (by rw [indicatorField_append]; rfl), maskField_append]
  | ext16 _ => obtain rfl : st = .awaitExt16 := of_decide_eq_true hsel; cases henc; rfl
  | ext64 _ => obtain rfl : st = .awaitExt64 := of_decide_eq_true hsel; cases henc; rfl
  | maskKey _ => obtain rfl : st = .awaitMask := of_decide_eq_true hsel; cases henc; rfl
  | bodyMasked _ =>
    obtain ⟨rfl, rfl⟩ : st = .awaitBody ∧ masked = true := by simpa [Instr.selectedIn] using hsel
    cases henc; rfl
  | bodyUnmasked _ =>
    obtain ⟨rfl, rfl⟩ : st = .awaitBody ∧ masked = false := by simpa [Instr.selectedIn] using hsel
    cases henc; rfl
  | reset => cases henc

/-- An operation that has a byte is asked for by that byte (R35). -/
theorem encode_of_encodeByte {i : Instr} {b : Byte} (h : encodeByte i = some b) : encode i = Edge.byte b := by
  rw [encode, h]

/-- RESET alone has no byte (spec/opcode_table.json). -/
theorem eq_reset_of_encodeByte_eq_none {i : Instr} (h : encodeByte i = none) : i = .reset := by
  cases i with
  | reset => rfl
  | _ => cases h

/-- Settles O9: an operation with a byte is read back from it, and RESET's edge carries `rst`. -/
theorem decodeOfEncodeIsTheOperation : Obligations.DecodeOfEncodeIsTheOperation := by
  intro i st masked hwf hsel
  cases henc : encodeByte i with
  | none => cases eq_reset_of_encodeByte_eq_none henc; exact decode_of_rst st masked rfl
  | some b => rw [encode_of_encodeByte henc, decode_byte, decodeByte_of_encodeByte hwf hsel henc]

/-! ### Encoding what was decoded -/

/-- The operation a byte decodes to is a well-formed one of the control state, and its byte is the byte (R9, R81). -/
structure IsOperationOf (st : Ctl) (masked : Bool) (b : Byte) (i : Instr) : Prop where
  encodes : encodeByte i = some b
  wf : i.wf = true
  selected : i.selectedIn st masked = true

/-- A second byte is the byte of the length operation it decodes to, whichever of the three it is (R80). -/
theorem decodeLengthByte_isOperationOf (masked : Bool) (b : Byte) :
    IsOperationOf .awaitLen masked b (decodeLengthByte b) := by
  have hb := lengthFields_append b
  obtain hle | h126 | h127 := indicator_cases (indicatorField b)
  · rw [decodeLengthByte_of_le hle]
    exact ⟨congrArg some hb, decide_eq_true hle, rfl⟩
  · rw [decodeLengthByte_of_eq_126 (congrArg BitVec.toNat h126)]
    rw [h126] at hb
    exact ⟨congrArg some hb, rfl, rfl⟩
  · rw [decodeLengthByte_of_eq_127 (congrArg BitVec.toNat h127)]
    rw [h127] at hb
    exact ⟨congrArg some hb, rfl, rfl⟩

/-- Every byte is the byte of the operation it decodes to, in every control state (R9, R81). -/
theorem decodeByte_isOperationOf (st : Ctl) (masked : Bool) (b : Byte) :
    IsOperationOf st masked b (decodeByte st masked b) := by
  cases st with
  | awaitFirst => exact ⟨congrArg some (firstFields_append b), rfl, rfl⟩
  | awaitLen => exact decodeLengthByte_isOperationOf masked b
  | awaitExt16 => exact ⟨rfl, rfl, rfl⟩
  | awaitExt64 => exact ⟨rfl, rfl, rfl⟩
  | awaitMask => exact ⟨rfl, rfl, rfl⟩
  | awaitBody =>
    cases masked with
    | true => exact ⟨rfl, rfl, rfl⟩
    | false => exact ⟨rfl, rfl, rfl⟩

/-- Settles O10. -/
theorem encodeOfDecodeIsTheByte : Obligations.EncodeOfDecodeIsTheByte := by
  intro st masked b
  obtain ⟨henc, hwf, hsel⟩ := decodeByte_isOperationOf st masked b
  exact ⟨henc, hwf, hsel⟩

/-- Settles O11: the operation is the decoded one, and any other with this byte would be decoded from it too. -/
theorem everyByteIsExactlyOneOperation : Obligations.EveryByteIsExactlyOneOperation := by
  intro st masked b
  obtain ⟨henc, hwf, hsel⟩ := decodeByte_isOperationOf st masked b
  exact ⟨decodeByte st masked b, ⟨hwf, hsel, henc⟩,
    fun j hwf' hsel' henc' => (decodeByte_of_encodeByte hwf' hsel' henc').symm⟩

/-- Settles O12: each word is decoded as it stands. -/
theorem writtenWordsDecode : Obligations.WrittenWordsDecode := by
  unfold Obligations.WrittenWordsDecode
  decide

end Sys2Proof
end

section
/-! Runs over bytes (20_memory.md, 41_payload.md): what a run reaches, said as one relation that composes; the key
bytes and the body bytes of a frame. -/

namespace Sys2Proof.Machine

/-! ### What a run reaches -/

/-- `n` edges take the block from `s` to the decoder state `d`, emit the events `new` and leave the edges `rest` to
come. -/
def Reaches (n : Nat) (s : State) (d : DecoderState) (new : List DecodedFrame) (rest : List Edge) : Prop :=
  ∃ t, run n s = .next t ∧ t.dec = d ∧ t.events = s.events ++ new ∧ t.input = rest ∧ t.capacity = s.capacity

/-- No edge reaches the state itself. -/
theorem Reaches.refl (s : State) : Reaches 0 s s.dec [] s.input :=
  ⟨s, rfl, rfl, (List.append_nil _).symm, rfl, rfl⟩

/-- A run goes on from what a shorter one reached; only that much need be known of the state in between. -/
theorem Reaches.trans {m n : Nat} {s : State} {d d' : DecoderState} {new new' : List DecodedFrame}
    {mid rest : List Edge} (h : Reaches m s d new mid)
    (h' : ∀ t : State, t.dec = d → t.input = mid → t.capacity = s.capacity → Reaches n t d' new' rest) :
    Reaches (m + n) s d' (new ++ new') rest := by
  obtain ⟨t, hrun, hdec, hevents, hinput, hcap⟩ := h
  obtain ⟨u, hrun', hdec', hevents', hinput', hcap'⟩ := h' t hdec hinput hcap
  refine ⟨u, (run_add hrun).trans hrun', hdec', ?_, hinput', hcap'.trans hcap⟩
  rw [hevents', hevents, List.append_assoc]

/-- One step reaches what it answers. -/
theorem Reaches.of_step {s t : State} {e : Edge} {rest : List Edge} {new : List DecodedFrame} (hstep : step s = .next t)
    (hin : s.input = e :: rest) (hevents : t.events = s.events ++ new) : Reaches 1 s t.dec new rest := by
  obtain ⟨hcap, hinput, -⟩ := step_surroundings hstep
  exact ⟨t, (run_one s).trans hstep, rfl, hevents, by rw [hinput, hin]; rfl, hcap⟩

/-- A byte reaches what the operation it decodes to answers. -/
theorem Reaches.of_byte {s t : State} {b : Byte} {i : Instr} {rest : List Edge} {new : List DecodedFrame}
    (hin : s.input = Edge.byte b :: rest) (hdecode : decodeByte s.dec.st s.dec.masked b = i)
    (hexec : exec i (beginEdge s) = .next t) (hevents : t.events = s.events ++ new) : Reaches 1 s t.dec new rest :=
  .of_step ((step_byte hin).trans (hdecode ▸ hexec)) hin hevents

/-! ### No edge listed -/

/-- With no edge listed a step holds every field (R172, R185). -/
theorem step_of_input_nil {s : State} (hin : s.input = []) : step s = .next (beginEdge s) := by
  have hedge : nextEdge s = Edge.idle := by rw [nextEdge, hin]; rfl
  have hact : nextAction s = .idle := by
    rw [nextAction, hedge]; exact decode_of_inactive s.dec.st s.dec.masked rfl
  exact step_idle hact

/-- With no edge listed any number of steps hold every field. -/
theorem reaches_of_input_nil (n : Nat) {s : State} (hin : s.input = []) : Reaches n s s.dec [] [] := by
  induction n generalizing s with
  | zero => exact hin ▸ Reaches.refl s
  | succ n ih =>
    obtain ⟨t, hrun, ht⟩ := ih (s := beginEdge s) (by rw [beginEdge_input, hin]; rfl)
    exact ⟨t, (run_succ_of_step (step_of_input_nil hin)).trans hrun, ht⟩

/-- Settles O4, by induction on the number of steps. -/
theorem nothingOfferedKeepsTheBlockParked : Obligations.NothingOfferedKeepsTheBlockParked := by
  intro n s hin
  obtain ⟨t, hrun, hdec, hevents, hinput, hcap⟩ := reaches_of_input_nil n hin
  exact ⟨t, hrun, hdec, hevents.trans (List.append_nil _), hcap, hinput⟩

/-! ### The body bytes -/

/-- The byte that a body byte `b` is stored as, by the flag `masked` (R121, R122). -/
def DecoderState.storedByte (d : DecoderState) (b : Byte) : Byte :=
  if d.masked then b ^^^ keyByteAt d.maskKey d.pos else b

/-- The bytes that the body bytes `w` are stored as, from the position the buffer stands at (R124). -/
def DecoderState.storedBytes (d : DecoderState) (w : List Byte) : List Byte :=
  if d.masked then unmaskFrom d.maskKey d.pos w else w

/-- The decoder state with one more byte in the buffer (R51). -/
def DecoderState.append (d : DecoderState) (v : Byte) : DecoderState :=
  { d with payloadBuffer := d.payloadBuffer ++ [v] }

@[simp] theorem DecoderState.append_pos (d : DecoderState) (v : Byte) : (d.append v).pos = d.pos + 1 :=
  List.length_append

/-- The event of the frame whose body ends with the bytes `w` (R34, R124). -/
def DecoderState.bodyEvent (d : DecoderState) (w : List Byte) : DecodedFrame where
  opcode := d.opcode
  fin := d.fin
  masked := d.masked
  length := d.length
  payload := d.payloadBuffer ++ d.storedBytes w

/-- The last body byte: the event is that of the decoder state with it stored. -/
theorem DecoderState.bodyEvent_singleton (d : DecoderState) (b : Byte) :
    d.bodyEvent [b] = (d.append (d.storedByte b)).event := by
  have hlast : d.storedBytes [b] = [d.storedByte b] := by
    unfold storedBytes storedByte
    split
    · rw [unmaskFrom_cons, unmaskFrom_nil]
    · rfl
  rw [bodyEvent, hlast]
  rfl

/-- A body byte before the last: it goes to the position, and the rest from the next position on. -/
theorem DecoderState.bodyEvent_cons (d : DecoderState) (b : Byte) (w : List Byte) :
    d.bodyEvent (b :: w) = (d.append (d.storedByte b)).bodyEvent w := by
  have hcons : d.storedBytes (b :: w) = d.storedByte b :: (d.append (d.storedByte b)).storedBytes w := by
    unfold storedBytes storedByte
    rw [append_pos]
    split
    next hm => rw [unmaskFrom_cons]; exact congrArg _ (if_pos hm).symm
    next hm => exact congrArg _ (if_neg hm).symm
  rw [bodyEvent, hcons, List.append_cons]
  rfl

/-- The operation of a body byte stores it (R121, R122). -/
theorem decodeByte_stores {s : State} (hst : s.dec.st = .awaitBody) (b : Byte) :
    Stores (decodeByte s.dec.st s.dec.masked b) s (s.dec.storedByte b) := by
  rw [hst]
  unfold DecoderState.storedByte
  cases hm : s.dec.masked with
  | true => exact ⟨b, .inl ⟨rfl, if_pos rfl⟩⟩
  | false => exact ⟨b, .inr ⟨rfl, if_neg Bool.false_ne_true⟩⟩

/-- A body byte before the last is stored, and the frame goes on. -/
theorem reaches_bodyByte {s : State} {b : Byte} {rest : List Edge} (hst : s.dec.st = .awaitBody)
    (hin : s.input = Edge.byte b :: rest) (hpos : s.dec.pos + 1 ≠ s.dec.length.toNat) :
    Reaches 1 s (s.dec.append (s.dec.storedByte b)) [] rest :=
  .of_byte hin rfl (exec_stores_before_last (s := beginEdge s) (decodeByte_stores (s := beginEdge s) hst b) hpos)
    (List.append_nil _).symm

/-- The last body byte is stored, and the frame completes with it. -/
theorem reaches_lastBodyByte {s : State} {b : Byte} {rest : List Edge} (hst : s.dec.st = .awaitBody)
    (hin : s.input = Edge.byte b :: rest) (hpos : s.dec.pos + 1 = s.dec.length.toNat) :
    Reaches 1 s DecoderState.reset [(s.dec.append (s.dec.storedByte b)).event] rest :=
  .of_byte hin rfl (exec_stores_last (s := beginEdge s) (decodeByte_stores (s := beginEdge s) hst b) hpos) rfl

/-- The body bytes that are left complete the frame, with all of them stored (R124). -/
theorem reaches_body {w : List Byte} {s : State} {rest : List Edge} (hst : s.dec.st = .awaitBody) (hne : w ≠ [])
    (hlen : s.dec.pos + w.length = s.dec.length.toNat) (hin : s.input = w.map Edge.byte ++ rest) :
    Reaches w.length s DecoderState.reset [s.dec.bodyEvent w] rest := by
  induction w generalizing s with
  | nil => exact absurd rfl hne
  | cons b w ih =>
    by_cases hw : w = []
    · subst hw
      rw [DecoderState.bodyEvent_singleton]
      exact reaches_lastBodyByte hst hin hlen
    · have hmore : 0 < w.length := List.length_pos_iff.mpr hw
      rw [List.length_cons] at hlen ⊢
      rw [Nat.add_comm, DecoderState.bodyEvent_cons]
      refine (reaches_bodyByte hst hin (by omega)).trans fun t hdec hinput _ => ?_
      rw [← hdec]
      refine ih (by rw [hdec]; exact hst) hw ?_ hinput
      rw [hdec, DecoderState.append_pos, Nat.add_assoc, Nat.add_comm 1]
      exact hlen

/-- Settles O29, by induction on the body bytes. -/
theorem bodyBytesDecodeToThePayload : Obligations.BodyBytesDecodeToThePayload := by
  intro w s rest hst hne hlen hin
  obtain ⟨t, hrun, hdec, hevents, hinput, hcap⟩ := reaches_body hst hne hlen hin
  exact ⟨t, hrun, hdec, hinput, hcap, hevents⟩

end Sys2Proof.Machine
end

section
/-! The header of a frame, over runs (40_header.md, 41_payload.md section 1): a length field in any of its three
forms, and the mask key. -/

namespace Sys2Proof.Machine

/-! ### The mask key -/

/-- The decoder state with one more key byte: it goes to slot `key_cnt`, which counts on (R120). -/
def DecoderState.addKeyByte (d : DecoderState) (b : Byte) : DecoderState :=
  { d with maskKey := d.maskKey.set d.keyCnt.toNat b, keyCnt := d.keyCnt + 1 }

/-- A byte in `AWAIT_MASK` is a key byte (R81). -/
theorem decodeByte_of_awaitMask {s : State} (hst : s.dec.st = .awaitMask) (b : Byte) :
    decodeByte s.dec.st s.dec.masked b = .maskKey b := by
  rw [hst, decodeByte_awaitMask]

/-- A key byte before the fourth. -/
theorem reaches_keyByte {s : State} {b : Byte} {rest : List Edge} (hst : s.dec.st = .awaitMask)
    (hin : s.input = Edge.byte b :: rest) (hcnt : s.dec.keyCnt ≠ 3) : Reaches 1 s (s.dec.addKeyByte b) [] rest :=
  .of_byte hin (decodeByte_of_awaitMask hst b) (exec_maskKey_before_last (s := beginEdge s) b hcnt)
    (List.append_nil _).symm

/-- Any number of key bytes before the fourth. -/
theorem reaches_keyBytes {s : State} (bs : List Byte) {rest : List Edge} (hst : s.dec.st = .awaitMask)
    (hle : s.dec.keyCnt.toNat + bs.length ≤ 3) (hin : s.input = bs.map Edge.byte ++ rest) :
    Reaches bs.length s (bs.foldl DecoderState.addKeyByte s.dec) [] rest := by
  induction bs generalizing s with
  | nil => exact (show s.input = rest from hin) ▸ Reaches.refl s
  | cons b bs ih =>
    rw [List.length_cons] at hle ⊢
    have hne : s.dec.keyCnt ≠ 3 := fun h => by rw [h] at hle; simp at hle
    have hcnt : (s.dec.keyCnt + 1).toNat = s.dec.keyCnt.toNat + 1 := by
      rw [BitVec.toNat_add]; exact Nat.mod_eq_of_lt (show s.dec.keyCnt.toNat + 1 < 4 by omega)
    rw [Nat.add_comm, List.foldl_cons]
    refine (reaches_keyByte hst hin hne).trans fun t hdec hinput _ => ?_
    rw [← hdec]
    refine ih (by rw [hdec]; exact hst) ?_ hinput
    rw [hdec]
    show (s.dec.keyCnt + 1).toNat + bs.length ≤ 3
    omega

/-- The fourth key byte, for a frame with a payload. -/
theorem reaches_lastKeyByte_of_nonempty {s : State} {b : Byte} {rest : List Edge} (hst : s.dec.st = .awaitMask)
    (hin : s.input = Edge.byte b :: rest) (hcnt : s.dec.keyCnt = 3) (hlen : s.dec.length ≠ 0) :
    Reaches 1 s { s.dec.addKeyByte b with st := .awaitBody } [] rest := by
  have hwrap : s.dec.keyCnt + 1 = 0 := by rw [hcnt]; rfl
  rw [DecoderState.addKeyByte, hwrap]
  exact .of_byte hin (decodeByte_of_awaitMask hst b) (exec_maskKey_last_of_nonempty (s := beginEdge s) b hcnt hlen)
    (List.append_nil _).symm

/-- The fourth key byte of an empty frame completes it. -/
theorem reaches_lastKeyByte_of_empty {s : State} {b : Byte} {rest : List Edge} (hst : s.dec.st = .awaitMask)
    (hin : s.input = Edge.byte b :: rest) (hcnt : s.dec.keyCnt = 3) (hlen : s.dec.length = 0) :
    Reaches 1 s DecoderState.reset [s.dec.event] rest :=
  .of_byte hin (decodeByte_of_awaitMask hst b) (exec_maskKey_last_of_empty (s := beginEdge s) b hcnt hlen) rfl

/-- A key is its four slots. -/
theorem key_eq_slots (k : Vector Byte 4) : k = #v[k[0], k[1], k[2], k[3]] := by
  ext i hi
  interval_cases i <;> rfl

/-- Four key bytes, fed from `key_cnt` = 0, fill the four slots (R54). -/
theorem set_slots (k m : Vector Byte 4) : (((m.set 0 k[0]).set 1 k[1]).set 2 k[2]).set 3 k[3] = k := by
  ext i hi
  interval_cases i <;> simp

/-- The first three key bytes, from the start of the key, go to the first three slots. -/
theorem reaches_threeKeyBytes {s : State} (a b c : Byte) {rest : List Edge} (hst : s.dec.st = .awaitMask)
    (hcnt : s.dec.keyCnt = 0) (hin : s.input = [a, b, c].map Edge.byte ++ rest) :
    Reaches 3 s { s.dec with maskKey := ((s.dec.maskKey.set 0 a).set 1 b).set 2 c, keyCnt := 3 } [] rest := by
  have hfold : [a, b, c].foldl DecoderState.addKeyByte s.dec =
      { s.dec with maskKey := ((s.dec.maskKey.set 0 a).set 1 b).set 2 c, keyCnt := 3 } := by
    simp only [List.foldl, DecoderState.addKeyByte, hcnt]
    rfl
  exact hfold ▸ reaches_keyBytes [a, b, c] hst (by rw [hcnt]; exact le_refl 3) hin

/-- The edges of a key, the last one apart. -/
theorem keyEdges_eq (k : Vector Byte 4) (rest : List Edge) :
    k.toList.map Edge.byte ++ rest = [k[0], k[1], k[2]].map Edge.byte ++ Edge.byte k[3] :: rest := by
  conv_lhs => rw [key_eq_slots k]
  rfl

/-- The whole key of a frame with a payload, from the start of the key (R54, R120). -/
theorem reaches_key_of_nonempty {s : State} {k : Vector Byte 4} {rest : List Edge} (hst : s.dec.st = .awaitMask)
    (hcnt : s.dec.keyCnt = 0) (hlen : s.dec.length ≠ 0) (hin : s.input = k.toList.map Edge.byte ++ rest) :
    Reaches 4 s { s.dec with maskKey := k, st := .awaitBody } [] rest := by
  have hthree := reaches_threeKeyBytes k[0] k[1] k[2] hst hcnt (hin.trans (keyEdges_eq k rest))
  refine hthree.trans (n := 1) (new := []) fun t hdec hinput _ => ?_
  have hlast :=
    reaches_lastKeyByte_of_nonempty (by rw [hdec]; exact hst) hinput (by rw [hdec]) (by rw [hdec]; exact hlen)
  have hall : { t.dec.addKeyByte k[3] with st := .awaitBody } = { s.dec with maskKey := k, st := .awaitBody } := by
    simp only [hdec, DecoderState.addKeyByte]
    simp [hcnt, set_slots]
  exact hall ▸ hlast

/-- The whole key of an empty frame, from the start of the key (R54, R120). -/
theorem reaches_key_of_empty {s : State} {k : Vector Byte 4} {rest : List Edge} (hst : s.dec.st = .awaitMask)
    (hcnt : s.dec.keyCnt = 0) (hlen : s.dec.length = 0) (hin : s.input = k.toList.map Edge.byte ++ rest) :
    Reaches 4 s DecoderState.reset [s.dec.event] rest := by
  have hthree := reaches_threeKeyBytes k[0] k[1] k[2] hst hcnt (hin.trans (keyEdges_eq k rest))
  refine hthree.trans (n := 1) (new := []) fun t hdec hinput _ => ?_
  have hlast := reaches_lastKeyByte_of_empty (by rw [hdec]; exact hst) hinput (by rw [hdec]) (by rw [hdec]; exact hlen)
  rw [hdec] at hlast
  exact hlast

/-- Settles O25: three bytes are stored and counted, and the fourth ends the key. -/
theorem keyBytesAreStoredInArrivalOrder : Obligations.KeyBytesAreStoredInArrivalOrder := by
  intro s k rest hst hcnt hin
  by_cases hlen : s.dec.length = 0
  · obtain ⟨t, hrun, hdec, hevents, hinput, hcap⟩ := reaches_key_of_empty hst hcnt hlen hin
    refine ⟨t, hrun, hinput, hcap, fun hne => absurd hlen hne, fun _ => ⟨hdec, ?_⟩⟩
    rw [hevents, ← hlen]
    rfl
  · obtain ⟨t, hrun, hdec, hevents, hinput, hcap⟩ := reaches_key_of_nonempty hst hcnt hlen hin
    exact ⟨t, hrun, hinput, hcap, fun _ => ⟨hevents.trans (List.append_nil _), hdec⟩, fun hz => absurd hz hlen⟩

end Sys2Proof.Machine
end

section
/-! Whole frames over runs (30_encoding.md section 1, 41_payload.md): the length field in any of its three forms, the
header, the frame, and frames back to back. -/

namespace Sys2Proof.Machine

/-! ### The length field -/

/-- `n` edges take the block from `s` through a length field, which leaves the decoder state `d` to R100's dispatch, and
leave the edges `rest` to come: the key is awaited, the body is awaited, or the empty frame is complete. -/
structure LengthFieldReaches (n : Nat) (s : State) (d : DecoderState) (rest : List Edge) : Prop where
  toMask : d.masked = true → Reaches n s { d with keyCnt := 0, st := .awaitMask } [] rest
  toBody : d.masked = false → d.length ≠ 0 → Reaches n s { d with st := .awaitBody } [] rest
  toFirst : d.masked = false → d.length = 0 → Reaches n s DecoderState.reset [d.event] rest

/-- What a run shows of a length field it has gone through. -/
theorem LengthFieldReaches.of_ends {n : Nat} {s u t : State} {d : DecoderState} {rest : List Edge}
    (hrun : run n s = .next t) (hevents : u.events = s.events) (hinput : u.input = rest)
    (hcap : u.capacity = s.capacity) (hends : LengthFieldEnds u d (.next t)) : LengthFieldReaches n s d rest := by
  constructor
  · intro hm
    cases hends.toMask hm
    exact ⟨_, hrun, rfl, hevents.trans (List.append_nil _).symm, hinput, hcap⟩
  · intro hm hl
    cases hends.toBody hm hl
    exact ⟨_, hrun, rfl, hevents.trans (List.append_nil _).symm, hinput, hcap⟩
  · intro hm hl
    cases hends.toFirst hm hl
    refine ⟨_, hrun, rfl, ?_, hinput, hcap⟩
    rw [DecoderState.event, hm, hl, hevents]

/-- The control state a length field ends in is not seen after it. -/
theorem LengthFieldReaches.of_same_but_st {n : Nat} {s : State} {d d' : DecoderState} {c : Ctl}
    {rest : List Edge} (h : LengthFieldReaches n s d rest) (hd : d = { d' with st := c }) :
    LengthFieldReaches n s d' rest := by
  subst hd
  exact ⟨h.toMask, h.toBody, h.toFirst⟩

/-- A length of at most 125 in its one byte (R75, R102). -/
theorem lengthFieldReaches_short {s : State} {b : Byte} {m : Bool} {indicator : Indicator} {rest : List Edge}
    (hin : s.input = Edge.byte b :: rest) (hdecode : decodeByte s.dec.st s.dec.masked b = .len7 m indicator)
    (hcap : WithinLimit s.capacity indicator.toNat) :
    LengthFieldReaches 1 s { s.dec with masked := m, length := indicator.setWidth 64 } rest := by
  have hfits : fits s.capacity (indicator.setWidth 64) = true := by
    rw [fits_iff, BitVec.toNat_setWidth_of_le (by decide)]
    exact hcap
  obtain ⟨t, ht, hends⟩ := afterLength_completes
    (s := { beginEdge s with dec := { s.dec with masked := m, length := indicator.setWidth 64 } }) hfits
  have hstep : step s = .next t := by
    rw [step_byte hin, hdecode, exec_len7]
    exact ht
  exact .of_ends (u := { beginEdge s with dec := _ }) ((run_one s).trans hstep) rfl (congrArg List.tail hin) rfl hends

/-- A length in `last + 1` extended bytes, announced by a second byte (R76, R77, R103 to R106). -/
theorem lengthFieldReaches_extended {s : State} {c : Ctl} {last : BitVec 3} {b : Byte} {m : Bool} {n : Nat}
    {rest : List Edge} (hc : CollectsUpTo c last) (hext : s.dec.extCnt = 0)
    (hin : s.input = Edge.byte b :: ((bigEndianBytes (last.toNat + 1) n).map Edge.byte ++ rest))
    (hstep : step s = .next (awaitExtended c m (beginEdge s))) (hn : n < 256 ^ (last.toNat + 1))
    (hcap : WithinLimit s.capacity n) :
    LengthFieldReaches (1 + (last.toNat + 1)) s { s.dec with masked := m, length := BitVec.ofNat 64 n } rest := by
  have hvalue := bigEndianValue_bigEndianBytes _ _ hn
  obtain ⟨u, t, d, hrun, hlen, hd, -, hevents, hinput, hcap', -, -, hends⟩ :=
    run_extendedLength (s := awaitExtended c m (beginEdge s)) hc rfl rfl (bigEndianBytes_length _ _)
      (congrArg List.tail hin) (by rw [hvalue]; exact hcap)
  have hrun' : run (1 + (last.toNat + 1)) s = .next t := by
    rw [run_add ((run_one s).trans hstep)]
    rwa [bigEndianBytes_length] at hrun
  have hlength : d.length = BitVec.ofNat 64 n := by rw [← hvalue, ← hlen, BitVec.ofNat_toNat, BitVec.setWidth_eq]
  have hreach : LengthFieldReaches (1 + (last.toNat + 1)) s d rest := .of_ends hrun' hevents hinput hcap' hends
  refine hreach.of_same_but_st (c := c) ?_
  rw [hd, hlength]
  simp [awaitExtended, hext]

/-- The operation of the second byte of a frame of `n` payload bytes, by its length form (R71, R81). -/
def LengthForm.operation (form : LengthForm) (m : Bool) (n : Nat) : Instr :=
  match form with
  | .short => .len7 m (BitVec.ofNat 7 n)
  | .ext16 => .len16 m
  | .ext64 => .len64 m

/-- A second byte with the indicator of a form is read as that form's operation. -/
theorem decodeLengthByte_of_form (form : LengthForm) (m : Bool) {n : Nat} (hn : n ≤ form.maxLength) :
    decodeLengthByte (BitVec.ofBool m ++ form.indicator n) = form.operation m n := by
  cases form with
  | short =>
    have hle : (BitVec.ofNat 7 n).toNat ≤ 125 := (BitVec.toNat_ofNat n 7) ▸ (Nat.mod_le _ _).trans hn
    rw [decodeLengthByte_of_le (by rw [indicatorField_append]; exact hle), maskField_append, indicatorField_append]
    rfl
  | ext16 =>
    rw [decodeLengthByte_of_eq_126 (by rw [indicatorField_append]; rfl), maskField_append]
    rfl
  | ext64 =>
    rw [decodeLengthByte_of_eq_127 (by rw [indicatorField_append]; rfl), maskField_append]
    rfl

/-- A length field of any form that holds the length (R71, R75 to R78). -/
theorem lengthFieldReaches_of_form {s : State} (form : LengthForm) (m : Bool) {n : Nat} {rest : List Edge}
    (hn : n ≤ form.maxLength) (hst : s.dec.st = .awaitLen) (hext : s.dec.extCnt = 0)
    (hin : s.input = Edge.byte (BitVec.ofBool m ++ form.indicator n) ::
      ((bigEndianBytes form.extBytes n).map Edge.byte ++ rest))
    (hcap : WithinLimit s.capacity n) :
    LengthFieldReaches (1 + form.extBytes) s { s.dec with masked := m, length := BitVec.ofNat 64 n } rest := by
  have hdecode := decodeLengthByte_of_form form m hn
  rw [← decodeByte_awaitLen s.dec.masked, ← hst] at hdecode
  have hstep := step_byte hin
  cases form with
  | short =>
    have hvalue : (BitVec.ofNat 7 n).toNat = n := by
      rw [BitVec.toNat_ofNat]; exact Nat.mod_eq_of_lt (show n < 128 from Nat.lt_of_le_of_lt hn (by decide))
    have hzext : (BitVec.ofNat 7 n).setWidth 64 = BitVec.ofNat 64 n := by
      apply BitVec.eq_of_toNat_eq
      rw [BitVec.toNat_setWidth, hvalue, BitVec.toNat_ofNat]
    exact hzext ▸ lengthFieldReaches_short hin hdecode (by rwa [hvalue])
  | ext16 =>
    rw [hdecode] at hstep
    exact lengthFieldReaches_extended (last := 1) (.inl ⟨rfl, rfl⟩) hext hin hstep
      (Nat.lt_of_le_of_lt hn (by decide)) hcap
  | ext64 =>
    rw [hdecode] at hstep
    exact lengthFieldReaches_extended (last := 7) (.inr ⟨rfl, rfl⟩) hext hin hstep
      (Nat.lt_of_le_of_lt hn (by decide)) hcap

/-! ### The header -/

/-- The decoder state after FIRST, at a frame's first byte (R101). -/
def WireFrame.afterFirst (f : WireFrame) : DecoderState :=
  { DecoderState.reset with st := .awaitLen, opcode := f.opcode, fin := f.fin }

/-- The decoder state a frame with a payload is in when its header has been taken (R30). -/
def WireFrame.awaitingBody (f : WireFrame) : DecoderState :=
  { DecoderState.reset with
    st := .awaitBody
    opcode := f.opcode
    fin := f.fin
    masked := f.key.isSome
    length := BitVec.ofNat 64 f.body.length
    maskKey := f.key.getD #v[0, 0, 0, 0] }

/-- The length field of a well-formed frame fits the length register (R75 to R77). -/
theorem WireFrame.length_toNat {f : WireFrame} (hwf : f.wf = true) :
    (BitVec.ofNat 64 f.body.length).toNat = f.body.length := by
  have hle : f.body.length ≤ f.form.maxLength := of_decide_eq_true hwf
  have hmax : f.form.maxLength ≤ 2 ^ 64 - 1 := by cases f.form <;> decide
  rw [BitVec.toNat_ofNat]
  exact Nat.mod_eq_of_lt (by omega)

/-- The length register is 0 for an empty body alone. -/
theorem WireFrame.length_eq_zero_iff {f : WireFrame} (hwf : f.wf = true) :
    BitVec.ofNat 64 f.body.length = 0 ↔ f.body = [] := by
  rw [← BitVec.toNat_inj, f.length_toNat hwf]
  exact List.length_eq_zero_iff

/-- The first byte of a frame (R73, R101). -/
theorem reaches_firstByte (f : WireFrame) {s : State} {rest : List Edge} (hreset : s.dec = DecoderState.reset)
    (hin : s.input = Edge.byte (BitVec.ofBool f.fin ++ f.rsv ++ f.opcode) :: rest) :
    Reaches 1 s f.afterFirst [] rest := by
  have hdecode : decodeByte s.dec.st s.dec.masked (BitVec.ofBool f.fin ++ f.rsv ++ f.opcode) =
      .first f.fin f.rsv f.opcode := by
    rw [hreset, reset_st, decodeByte_awaitFirst, finField_append, rsvField_append, opcodeField_append]
  have hreach := Reaches.of_byte hin hdecode (exec_first _ _ _ _) (List.append_nil _).symm
  rw [beginEdge_dec, hreset] at hreach
  exact hreach

/-- The mask key as bytes, none if the frame is not masked (R71). -/
def WireFrame.keyBytes (f : WireFrame) : List Byte := (f.key.map Vector.toList).getD []

theorem WireFrame.keyBytes_of_none {f : WireFrame} (h : f.key = none) : f.keyBytes = [] := by rw [keyBytes, h]; rfl

theorem WireFrame.keyBytes_of_some {f : WireFrame} {k : Vector Byte 4} (h : f.key = some k) :
    f.keyBytes = k.toList := by rw [keyBytes, h]; rfl

theorem WireFrame.keyBytes_length (f : WireFrame) : f.keyBytes.length = if f.key.isSome then 4 else 0 := by
  cases hkey : f.key with
  | none => rw [keyBytes_of_none hkey]; rfl
  | some k => rw [keyBytes_of_some hkey, Vector.length_toList]; rfl

/-- A header is the first byte, the length field's bytes and the key (R71). -/
theorem WireFrame.header_eq (f : WireFrame) :
    f.header = (BitVec.ofBool f.fin ++ f.rsv ++ f.opcode) ::
      (BitVec.ofBool f.key.isSome ++ f.form.indicator f.body.length) ::
      (bigEndianBytes f.form.extBytes f.body.length ++ f.keyBytes) := rfl

/-- The number of bytes of a header, part by part (R72). -/
theorem WireFrame.header_length (f : WireFrame) :
    f.header.length = 1 + (1 + f.form.extBytes + f.keyBytes.length) := by
  rw [header_eq, List.length_cons, List.length_cons, List.length_append, bigEndianBytes_length]
  omega

/-- The state `s` stands at the second byte of the frame `f`, whose header is followed by the edges `rest`. -/
structure AtSecondByte (f : WireFrame) (s : State) (rest : List Edge) : Prop where
  wf : f.wf = true
  capacity : WithinLimit s.capacity f.body.length
  dec : s.dec = f.afterFirst
  input : s.input = Edge.byte (BitVec.ofBool f.key.isSome ++ f.form.indicator f.body.length) ::
    ((bigEndianBytes f.form.extBytes f.body.length).map Edge.byte ++ (f.keyBytes.map Edge.byte ++ rest))

/-- The length field of a frame, from its second byte on. -/
theorem AtSecondByte.lengthField {f : WireFrame} {s : State} {rest : List Edge} (h : AtSecondByte f s rest) :
    LengthFieldReaches (1 + f.form.extBytes) s
      { f.afterFirst with masked := f.key.isSome, length := BitVec.ofNat 64 f.body.length }
      (f.keyBytes.map Edge.byte ++ rest) :=
  h.dec ▸ lengthFieldReaches_of_form f.form f.key.isSome (of_decide_eq_true h.wf) (by rw [h.dec]; rfl)
    (by rw [h.dec]; rfl) h.input h.capacity

/-- A frame with a payload: its body is awaited after the length field, or after the key. -/
theorem AtSecondByte.reaches_of_nonempty {f : WireFrame} {s : State} {rest : List Edge} (h : AtSecondByte f s rest)
    (hbody : f.body ≠ []) : Reaches (1 + f.form.extBytes + f.keyBytes.length) s f.awaitingBody [] rest := by
  have hfield := h.lengthField
  have hlen : BitVec.ofNat 64 f.body.length ≠ 0 := mt (f.length_eq_zero_iff h.wf).mp hbody
  unfold WireFrame.awaitingBody
  cases hkey : f.key with
  | none =>
    rw [hkey, f.keyBytes_of_none hkey] at hfield
    rw [f.keyBytes_of_none hkey]
    exact hfield.toBody rfl hlen
  | some k =>
    rw [hkey, f.keyBytes_of_some hkey] at hfield
    rw [f.keyBytes_of_some hkey, Vector.length_toList]
    refine (hfield.toMask rfl).trans (new' := []) fun t hdec hinput _ => ?_
    have hreach := reaches_key_of_nonempty (by rw [hdec]) (by rw [hdec]) (by rw [hdec]; exact hlen) hinput
    rw [hdec] at hreach
    exact hreach

/-- An empty frame: it completes with its length field, or with its key. -/
theorem AtSecondByte.reaches_of_empty {f : WireFrame} {s : State} {rest : List Edge} (h : AtSecondByte f s rest)
    (hbody : f.body = []) :
    Reaches (1 + f.form.extBytes + f.keyBytes.length) s DecoderState.reset [f.event] rest := by
  have hfield := h.lengthField
  have hlen : BitVec.ofNat 64 f.body.length = 0 := (f.length_eq_zero_iff h.wf).mpr hbody
  unfold WireFrame.event WireFrame.payload
  cases hkey : f.key with
  | none =>
    rw [hkey, f.keyBytes_of_none hkey] at hfield
    rw [f.keyBytes_of_none hkey, hbody]
    rw [hbody] at hfield
    exact hfield.toFirst rfl rfl
  | some k =>
    rw [hkey, f.keyBytes_of_some hkey] at hfield
    rw [f.keyBytes_of_some hkey, Vector.length_toList]
    refine (hfield.toMask rfl).trans (new := []) fun t hdec hinput _ => ?_
    have hreach := reaches_key_of_empty (by rw [hdec]) (by rw [hdec]) (by rw [hdec]; exact hlen) hinput
    rw [hdec] at hreach
    rw [hbody] at hreach ⊢
    exact hreach

/-- The state `s` stands at a frame boundary, with the bytes `bs` and then the edges `rest` to come. -/
structure AtBoundary (s : State) (bs : List Byte) (rest : List Edge) : Prop where
  dec : s.dec = DecoderState.reset
  input : s.input = bs.map Edge.byte ++ rest

/-- The first byte of a frame leads to its second. -/
theorem reaches_atSecondByte {f : WireFrame} {s : State} {rest : List Edge} {n : Nat} {d : DecoderState}
    {new : List DecodedFrame} (hwf : f.wf = true) (hcap : WithinLimit s.capacity f.body.length)
    (hs : AtBoundary s f.header rest) (h : ∀ t, AtSecondByte f t rest → Reaches n t d new rest) :
    Reaches (1 + n) s d new rest := by
  have hin := hs.input
  rw [f.header_eq, List.map_cons, List.map_cons, List.map_append, List.cons_append, List.cons_append,
    List.append_assoc] at hin
  exact (reaches_firstByte f hs.dec hin).trans fun t hdec hinput hcap' => h t ⟨hwf, hcap' ▸ hcap, hdec, hinput⟩

/-- The whole header of a frame with a payload. -/
theorem reaches_header_of_nonempty {f : WireFrame} {s : State} {rest : List Edge} (hwf : f.wf = true)
    (hcap : WithinLimit s.capacity f.body.length) (hs : AtBoundary s f.header rest) (hbody : f.body ≠ []) :
    Reaches f.header.length s f.awaitingBody [] rest := by
  rw [f.header_length]
  exact reaches_atSecondByte hwf hcap hs fun t ht => ht.reaches_of_nonempty hbody

/-- The whole header of an empty frame, which is the whole frame. -/
theorem reaches_header_of_empty {f : WireFrame} {s : State} {rest : List Edge} (hwf : f.wf = true)
    (hcap : WithinLimit s.capacity f.body.length) (hs : AtBoundary s f.header rest) (hbody : f.body = []) :
    Reaches f.header.length s DecoderState.reset [f.event] rest := by
  rw [f.header_length]
  exact reaches_atSecondByte hwf hcap hs fun t ht => ht.reaches_of_empty hbody

/-! ### The whole frame -/

/-- The event of a frame is that of its body, read from where its header leads. -/
theorem WireFrame.bodyEvent_awaitingBody (f : WireFrame) : f.awaitingBody.bodyEvent f.body = f.event := by
  unfold WireFrame.event WireFrame.payload WireFrame.awaitingBody
  cases f.key <;> rfl

/-- A whole frame, from a frame boundary. -/
theorem reaches_frame {f : WireFrame} {s : State} {rest : List Edge} (hwf : f.wf = true)
    (hcap : WithinLimit s.capacity f.body.length) (hs : AtBoundary s f.bytes rest) :
    Reaches f.bytes.length s DecoderState.reset [f.event] rest := by
  have hin := hs.input
  rw [WireFrame.bytes, List.map_append, List.append_assoc] at hin
  rw [WireFrame.bytes, List.length_append]
  by_cases hbody : f.body = []
  · rw [hbody, List.map_nil, List.nil_append] at hin
    rw [hbody, List.length_nil, Nat.add_zero]
    exact reaches_header_of_empty hwf hcap ⟨hs.dec, hin⟩ hbody
  · refine (reaches_header_of_nonempty hwf hcap ⟨hs.dec, hin⟩ hbody).trans fun t hdec hinput _ => ?_
    have hbodyReaches := reaches_body (s := t) (by rw [hdec]; rfl) hbody ?_ hinput
    · rwa [hdec, f.bodyEvent_awaitingBody] at hbodyReaches
    · rw [hdec]
      show 0 + f.body.length = (BitVec.ofNat 64 f.body.length).toNat
      rw [f.length_toNat hwf, Nat.zero_add]

/-- Settles O31: the header leads to the body, or completes an empty frame, and the body completes the frame. -/
theorem wholeFrameEmitsExactlyItsEvent : Obligations.WholeFrameEmitsExactlyItsEvent := by
  intro f s rest hwf hcap hreset hin
  exact reaches_frame hwf hcap ⟨hreset, hin⟩

/-- Frames back to back, from a frame boundary. -/
theorem reaches_frames {fs : List WireFrame} {s : State} {rest : List Edge}
    (hfs : ∀ f ∈ fs, f.wf = true ∧ WithinLimit s.capacity f.body.length)
    (hs : AtBoundary s (fs.flatMap WireFrame.bytes) rest) :
    Reaches (fs.flatMap WireFrame.bytes).length s DecoderState.reset (fs.map WireFrame.event) rest := by
  induction fs generalizing s with
  | nil =>
    have hinput : s.input = rest := hs.input
    exact hinput ▸ hs.dec ▸ Reaches.refl s
  | cons f fs ih =>
    obtain ⟨hwf, hcap⟩ := hfs f List.mem_cons_self
    have hin := hs.input
    rw [List.flatMap_cons, List.map_append, List.append_assoc] at hin
    rw [List.flatMap_cons, List.length_append]
    exact (reaches_frame hwf hcap ⟨hs.dec, hin⟩).trans fun t hdec hinput hcap' =>
      ih (fun g hg => hcap' ▸ hfs g (List.mem_cons_of_mem f hg)) ⟨hdec, hinput⟩

/-- Settles O32, by induction on the frames. -/
theorem backToBackFramesEmitEventsInOrder : Obligations.BackToBackFramesEmitEventsInOrder := by
  intro fs s rest hfs hreset hin
  exact reaches_frames hfs ⟨hreset, hin⟩

end Sys2Proof.Machine
end

section
/-! What follows from the runs over whole frames and their parts: the length of a header (R72), unmasking as its own
inverse (R125), and the assembly and the end of a length field (R100, R107). -/

namespace Sys2Proof.Machine

/-! ### The length of a header -/

/-- A header has two bytes, those of its length form, and four if it is masked (R72). -/
theorem WireFrame.header_length_eq (f : WireFrame) :
    f.header.length = 2 + f.form.extBytes + (if f.key.isSome then 4 else 0) := by
  rw [f.header_length, f.keyBytes_length]
  omega

/-- The lengths a header can have: 2 or 6 bytes with no extended length, 4 or 8 with 16 bits of it, 10 or 14 with 64. -/
theorem WireFrame.header_length_mem (f : WireFrame) : f.header.length ∈ [2, 4, 6, 8, 10, 14] := by
  rw [f.header_length_eq]
  cases f.form <;> cases f.key.isSome <;> decide

/-- The number of extended bytes is read from the indicator (R71, R72). -/
theorem LengthForm.extBytes_of_indicator (form : LengthForm) {n : Nat} (hn : n ≤ form.maxLength) :
    ((form.indicator n).toNat ≤ 125 → form.extBytes = 0) ∧ ((form.indicator n).toNat = 126 → form.extBytes = 2) ∧
      ((form.indicator n).toNat = 127 → form.extBytes = 8) := by
  cases form with
  | short =>
    have hle : (LengthForm.short.indicator n).toNat ≤ 125 :=
      (BitVec.toNat_ofNat n 7) ▸ (Nat.mod_le _ _).trans hn
    exact ⟨fun _ => rfl, fun h => by omega, fun h => by omega⟩
  | ext16 =>
    have h126 : (LengthForm.ext16.indicator n).toNat = 126 := rfl
    exact ⟨fun h => by omega, fun _ => rfl, fun h => by omega⟩
  | ext64 =>
    have h127 : (LengthForm.ext64.indicator n).toNat = 127 := rfl
    exact ⟨fun h => by omega, fun h => by omega, fun _ => rfl⟩

/-- The length of a header, read from its second byte (R72). -/
theorem WireFrame.header_length_of_secondByte (f : WireFrame) (hwf : f.wf = true) :
    ∃ b : Byte, f.header[1]? = some b ∧
      ((indicatorField b).toNat ≤ 125 → f.header.length = 2 + 0 + 4 * (maskField b).toNat) ∧
      ((indicatorField b).toNat = 126 → f.header.length = 2 + 2 + 4 * (maskField b).toNat) ∧
      ((indicatorField b).toNat = 127 → f.header.length = 2 + 8 + 4 * (maskField b).toNat) := by
  obtain ⟨hshort, h16, h64⟩ := f.form.extBytes_of_indicator (of_decide_eq_true hwf)
  have hkey : (if f.key.isSome then 4 else 0) = 4 * f.key.isSome.toNat := by cases f.key.isSome <;> rfl
  refine ⟨BitVec.ofBool f.key.isSome ++ f.form.indicator f.body.length, rfl, ?_⟩
  rw [indicatorField_append, maskField_append, f.header_length_eq, hkey]
  exact ⟨fun h => by rw [hshort h], fun h => by rw [h16 h], fun h => by rw [h64 h]⟩

/-- Settles O30: the header's parts are counted, and the decoder has taken exactly these when it awaits the body. -/
theorem headerLengthIsTwoPlusExtPlusKey : Obligations.HeaderLengthIsTwoPlusExtPlusKey := by
  intro f
  refine ⟨⟨f.header_length_eq, f.header_length_mem, List.length_append⟩, f.header_length_of_secondByte, ?_⟩
  intro s rest hwf hbody hcap hreset hin
  obtain ⟨t, hrun, hdec, hevents, hinput, hcap'⟩ := reaches_header_of_nonempty hwf hcap ⟨hreset, hin⟩ hbody
  refine ⟨t, hrun, ?_⟩
  rw [hdec]
  exact ⟨rfl, rfl, f.length_toNat hwf, rfl, hevents.trans (List.append_nil _), hinput, hcap'⟩

/-! ### Unmasking -/

/-- Unmasking with a key twice, from the same position, gives the bytes back (R125). -/
theorem unmaskFrom_unmaskFrom (key : Vector Byte 4) (p : Nat) (w : List Byte) :
    unmaskFrom key p (unmaskFrom key p w) = w := by
  induction w generalizing p with
  | nil => rfl
  | cons b w ih => rw [unmaskFrom_cons, unmaskFrom_cons, ih, BitVec.xor_assoc, BitVec.xor_self, BitVec.xor_zero]

/-- Settles O33: the frame's event carries its body unmasked, and the body is the payload masked. -/
theorem unmaskingIsInvolutive : Obligations.UnmaskingIsInvolutive := by
  intro f key payload s rest hkey hbody hwf hcap hreset hin
  have hlen : f.body.length = payload.length := by rw [hbody, unmaskFrom_length]
  obtain ⟨t, hrun, -, hevents, -⟩ := reaches_frame hwf (hlen ▸ hcap) ⟨hreset, hin⟩
  refine ⟨t, f.event, hrun, hevents, ?_, (f.length_toNat hwf).trans hlen, ?_⟩
  · show f.payload = payload
    rw [WireFrame.payload, hkey, hbody]
    exact unmaskFrom_unmaskFrom key 0 payload
  · show f.key.isSome = true
    rw [hkey]
    rfl

/-! ### The assembly of a length -/

/-- Up to eight bytes, shifted in one by one, are their big-endian value (R107). -/
theorem foldl_shiftInByte (bs : List Byte) (h : bs.length ≤ 8) :
    (bs.foldl shiftInByte 0).toNat = bigEndianValue bs := by
  induction bs using List.reverseRecOn with
  | nil => rfl
  | append_singleton bs b ih =>
    rw [List.length_append, List.length_singleton] at h
    rw [List.foldl_append]
    exact shiftInByte_bigEndianValue b (ih (by omega)) (by omega)

/-- A shift by a byte drops no bit of a length that has its top byte free (R107). -/
theorem shiftLeft_toNat_of_lt {l : Len} (h : l.toNat < 2 ^ 56) : (l <<< 8).toNat = l.toNat * 256 := by
  rw [BitVec.toNat_shiftLeft, Nat.shiftLeft_eq, Nat.mod_eq_of_lt (by omega)]

/-- Settles O23: the run over part of a field keeps `Collected`, and fewer than eight bytes leave the top byte free. -/
theorem lengthAssemblyIsExact : Obligations.LengthAssemblyIsExact := by
  refine ⟨?_, fun bs h => ⟨foldl_shiftInByte bs h, bigEndianValue_lt bs⟩⟩
  intro s bs rest hfield hl hc hin
  obtain ⟨last, hst, hle⟩ : ∃ last : BitVec 3, CollectsUpTo s.dec.st last ∧ bs.length ≤ last.toNat := by
    obtain ⟨hst, hlt⟩ | ⟨hst, hlt⟩ := hfield
    · exact ⟨1, .inl ⟨hst, rfl⟩, Nat.le_of_lt_succ hlt⟩
    · exact ⟨7, .inr ⟨hst, rfl⟩, Nat.le_of_lt_succ hlt⟩
  have hlast : last.toNat < 8 := last.isLt
  obtain ⟨t, hrun, ht⟩ := run_collects hst hl hc bs rest hle hin
  have hfree : t.dec.length.toNat < 2 ^ 56 := ht.length ▸ bigEndianValue_lt_of_length_le (by omega)
  exact ⟨t, hrun, ht.length, ht.length ▸ bigEndianValue_lt bs, ht.extCnt, shiftLeft_toNat_of_lt hfree, ht.frame,
    ht.events, ht.input, ht.capacity⟩

/-! ### The end of a length field -/

/-- A length field whose last operation leaves the decoder state `d` to `AfterLength()` ends in one of R100's three
ways. -/
theorem afterLength_ends_with_dec {s : State} {d : DecoderState} (hcap : WithinLimit s.capacity d.length.toNat) :
    LengthFieldEnds s d (afterLength { s with dec := d }) :=
  (afterLength_ends (s := { s with dec := d }) ((fits_iff _ _).mpr hcap)).with_dec s.dec

/-- Settles O21: LEN7, and EXT16 and EXT64 at the last byte, end in `AfterLength()`. -/
theorem lengthFieldEndsWithinCapacity : Obligations.LengthFieldEndsWithinCapacity := by
  constructor
  · intro s mask indicator hcap
    rw [exec_len7]
    refine afterLength_ends_with_dec ?_
    rwa [BitVec.toNat_setWidth_of_le (by decide)]
  · rintro s b length rfl hcap
    rw [exec_ext16, exec_ext64]
    constructor
    · intro hlast
      rw [collectLength_of_eq b hlast]
      exact afterLength_ends_with_dec hcap
    · intro hlast
      rw [collectLength_of_eq b hlast]
      exact afterLength_ends_with_dec hcap

end Sys2Proof.Machine
end

section
/-! What a step can do (10_state.md, 20_memory.md, 60_exceptions.md): the recovery and RESET, completion within the
capacity, the shape of every step seen from the state before it, and what each operation leaves unchanged. -/

namespace Sys2Proof.Machine

/-! ### RESET, the recovery and the selected operation -/

/-- Settles O1: RESET clears every field and every output register, and the reset state is its own image. -/
theorem resetGivesEveryFieldItsResetValue : Obligations.ResetGivesEveryFieldItsResetValue :=
  ⟨exec_reset, exec_reset State.reset⟩

/-- An edge without `rst` that finds an upset `st` is recovered from, whatever else it carries (R36). -/
theorem decode_of_stUpset (st : Ctl) (masked : Bool) {e : Edge} (hrst : e.rst = false) (hupset : e.stUpset = true) :
    decode st masked e = .recover := by
  simp [decode, hrst, hupset]

/-- The codes of the control states read back (R21). -/
theorem ofCode_code (c : Ctl) : Ctl.ofCode c.code = some c := by
  cases c <;> decide

/-- Settles O5: the codes are R21's table, and the recovery clears every field and feeds no byte. -/
theorem unusedStateCodeIsRecoveredFrom : Obligations.UnusedStateCodeIsRecoveredFrom := by
  refine ⟨⟨rfl, rfl, rfl, rfl, rfl, rfl⟩, ofCode_code, by decide, by decide, ?_⟩
  intro s e rest hin hupset hrst
  have hact : nextAction s = .recover :=
    (nextAction_cons hin).trans (decode_of_stUpset s.dec.st s.dec.masked hrst hupset)
  exact ⟨_, step_recover hact, rfl, rfl, rfl, rfl, congrArg List.tail hin, rfl⟩

/-- Settles O6: `beginEdge` takes the edge, counts it and clears the strobes. -/
theorem stepRunsTheSelectedOperation : Obligations.StepRunsTheSelectedOperation := by
  intro s e rest i hin hdecode
  have hbegin : beginEdge s = { s with input := rest, tick := s.tick + 1, out := idleOutputs s.tick } := by
    rw [beginEdge, hin]
    rfl
  refine ⟨idleOutputs s.tick, rfl, rfl, ?_⟩
  rw [step_operation ((nextAction_cons hin).trans hdecode), hbegin]

/-- Settles O44: the two stores' read-after-write rules, and `KeyWrite` names no other field. -/
theorem keySlotReadsWhatWasWritten : Obligations.KeySlotReadsWhatWasWritten := by
  intro s i v
  exact ⟨keyRead_keyWrite_same i v s, fun _ hne => keyRead_keyWrite_other hne.symm v s, rfl⟩

/-! ### Completion -/

/-- An outcome that is not refused is a next state: there is no fault (R160). -/
theorem exists_next_of_ne_refused {r : Result} (h : ∀ reason, r ≠ .refused reason) : ∃ t, r = .next t := by
  cases r with
  | next t => exact ⟨t, rfl⟩
  | fault reason => cases reason
  | refused reason => exact absurd rfl (h reason)

/-- Settles O50: a refusal needs a completed length above the capacity. -/
theorem everyOperationCompletesWithinCapacity : Obligations.EveryOperationCompletesWithinCapacity := by
  intro i s hlimit
  refine exists_next_of_ne_refused fun reason hrefused => ?_
  obtain ⟨-, length, n, hlength, hcap, hlt⟩ := (exec_refused_iff i s reason).mp hrefused
  exact absurd (hlimit length hlength n hcap) (by omega)

/-- A step is not refused where the capacity is unbounded (R60). -/
theorem step_completes_of_unbounded {s : State} (hcap : s.capacity = none) : ∃ t, step s = .next t := by
  refine exists_next_of_ne_refused fun reason hrefused => ?_
  obtain ⟨-, -, -, n, -, -, hsome, -⟩ := (step_refused_iff s reason).mp hrefused
  rw [hcap] at hsome
  cases hsome

/-- Settles O49, by induction on the number of steps: the capacity stays unbounded. -/
theorem unboundedCapacityNeverRefuses : Obligations.UnboundedCapacityNeverRefuses := by
  intro n
  induction n with
  | zero => exact fun s _ => ⟨s, rfl⟩
  | succ n ih =>
    intro s hcap
    obtain ⟨t, hstep⟩ := step_completes_of_unbounded hcap
    obtain ⟨hcap', -⟩ := step_surroundings hstep
    rw [SafeFor, run_succ_of_step hstep]
    exact ih t (hcap'.trans hcap)

/-- The first step of a run that answers a next state. -/
theorem run_succ_next {n : Nat} {s t : State} (h : run (n + 1) s = .next t) :
    ∃ u, step s = .next u ∧ run n u = .next t := by
  unfold run at h
  split at h
  case h_1 u hu => exact ⟨u, hu, h⟩
  all_goals cases h

/-! ### The shape of a step -/

/-- The next edge makes the block store the byte `v` (R121, R122). -/
def StoresNext (s : State) (v : Byte) : Prop := ∃ i, nextAction s = .operation i ∧ Stores i s v

/-- The step from `s` to `t` clears every field and puts out nothing: RESET and the recovery (R180, R36). -/
structure ClearsQuietly (s t : State) : Prop where
  dec : t.dec = DecoderState.reset
  events : t.events = s.events
  frmValid : t.out.frmValid = false
  payValid : t.out.payValid = false

/-- Everything a step can do, seen from the state before it: clear every field; write header fields, none on an idle
edge, and perhaps complete an empty frame; store a byte, and perhaps complete the frame. -/
theorem step_shape {s t : State} (h : step s = .next t) :
    ((∀ v, ¬ StoresNext s v) ∧
      (ClearsQuietly s t ∨ ∃ u, (t = u ∨ t = complete u) ∧ WritesHeader (beginEdge s) u)) ∨
    ∃ v, StoresNext s v ∧ (t = bufAppend v (beginEdge s) ∨ t = complete (bufAppend v (beginEdge s))) := by
  have noStore : (∀ i, nextAction s ≠ .operation i) → ∀ v, ¬ StoresNext s v := fun hne _ ⟨i, hi, _⟩ => hne i hi
  have onlyOp : ∀ {i}, nextAction s = .operation i → (∀ v, ¬ Stores i (beginEdge s) v) → ∀ v, ¬ StoresNext s v := by
    rintro i hi hno v ⟨j, hj, hstores⟩
    cases hi.symm.trans hj
    exact hno v hstores
  obtain ⟨i, hi, hexec⟩ | ⟨hact, rfl⟩ | ⟨hact, rfl⟩ := step_next h
  · obtain ⟨rfl, rfl⟩ | ⟨-, hno, u, hu, hwrites⟩ | ⟨-, v, hv, hstored⟩ := exec_shape hexec
    · exact .inl ⟨onlyOp hi (by simp [Stores]), .inl ⟨rfl, rfl, rfl, rfl⟩⟩
    · exact .inl ⟨onlyOp hi hno, .inr ⟨u, hu, hwrites⟩⟩
    · exact .inr ⟨v, ⟨i, hi, hv⟩, hstored.imp And.right And.right⟩
  · exact .inl ⟨noStore (by simp [hact]), .inr ⟨_, .inl rfl, rfl, rfl⟩⟩
  · exact .inl ⟨noStore (by simp [hact]), .inl ⟨rfl, rfl, rfl, rfl⟩⟩

/-- A step that writes header fields leaves the outputs and the events as the edge left them. -/
theorem WritesHeader.out_events {s u : State} (h : WritesHeader s u) : u.out = s.out ∧ u.events = s.events := by
  rw [h.frame]
  exact ⟨rfl, rfl⟩

/-- Settles O37: the two kinds of step that complete a frame drive the event outputs from its event. -/
theorem frameStrobeMarksTheStepThatEmits : Obligations.FrameStrobeMarksTheStepThatEmits := by
  intro s t hstep
  obtain ⟨-, hclear | ⟨u, rfl | rfl, hwrites⟩⟩ | ⟨v, -, rfl | rfl⟩ := step_shape hstep
  · exact .inl ⟨hclear.frmValid, hclear.events⟩
  · obtain ⟨hout, hevents⟩ := hwrites.out_events
    exact .inl ⟨by rw [hout]; rfl, hevents⟩
  · obtain ⟨hout, hevents⟩ := hwrites.out_events
    refine .inr ⟨rfl, ?_⟩
    have hnone : (complete u).out.payValid = false := by rw [complete_out, hout]; rfl
    rw [hnone, if_neg Bool.false_ne_true, List.append_nil, complete_events, hevents, ← beginEdge_dec s,
      ← hwrites.buffer]
    rfl
  · exact .inl ⟨rfl, rfl⟩
  · exact .inr ⟨rfl, rfl⟩

/-- A byte is stored next exactly when the next edge selects a body operation. -/
theorem exists_storesNext_iff (s : State) : (∃ v, StoresNext s v) ↔
    ∃ b, nextAction s = .operation (.bodyMasked b) ∨ nextAction s = .operation (.bodyUnmasked b) := by
  constructor
  · rintro ⟨v, i, hi, b, ⟨rfl, -⟩ | ⟨rfl, -⟩⟩
    · exact ⟨b, .inl hi⟩
    · exact ⟨b, .inr hi⟩
  · rintro ⟨b, hi | hi⟩
    · exact ⟨_, _, hi, b, .inl ⟨rfl, rfl⟩⟩
    · exact ⟨_, _, hi, b, .inr ⟨rfl, rfl⟩⟩

/-- Settles O38: the steps that store a byte raise `pay_valid` with the append, and the others leave it 0. -/
theorem payloadStrobeMarksTheStepThatStores : Obligations.PayloadStrobeMarksTheStepThatStores := by
  intro s t hstep
  rw [← exists_storesNext_iff]
  have quiet : (∀ v, ¬ StoresNext s v) → t.out.payValid = false →
      (t.dec.payloadBuffer = s.dec.payloadBuffer ∨ t.dec.payloadBuffer = []) →
      (t.out.payValid = true ↔ ∃ v, StoresNext s v) ∧
      (t.out.payValid = true → t.out.payIndex = BitVec.ofNat 64 s.dec.pos ∧
        (t.out.frmValid = false → t.dec.payloadBuffer = s.dec.payloadBuffer ++ [t.out.payData])) ∧
      (t.out.payValid = false → t.dec.payloadBuffer = s.dec.payloadBuffer ∨ t.dec.payloadBuffer = []) := by
    intro hno hpay hbuf
    exact ⟨by simp [hpay, hno], by simp [hpay], fun _ => hbuf⟩
  obtain ⟨hno, hclear | ⟨u, rfl | rfl, hwrites⟩⟩ | ⟨v, hv, rfl | rfl⟩ := step_shape hstep
  · exact quiet hno hclear.payValid (.inr (by rw [hclear.dec]; rfl))
  · obtain ⟨hout, -⟩ := hwrites.out_events
    exact quiet hno (by rw [hout]; rfl) (.inl hwrites.buffer)
  · obtain ⟨hout, -⟩ := hwrites.out_events
    exact quiet hno (by rw [complete_out, hout]; rfl) (.inr rfl)
  · exact ⟨iff_of_true rfl ⟨v, hv⟩, fun _ => ⟨rfl, fun _ => rfl⟩, fun hpay => absurd hpay Bool.noConfusion⟩
  · exact ⟨iff_of_true rfl ⟨v, hv⟩, fun _ => ⟨rfl, fun hfrm => absurd hfrm Bool.noConfusion⟩, fun _ => .inr rfl⟩

/-- Settles O45: a step clears the buffer, keeps it, or appends to it. -/
theorem storedBytesAreNeverOverwritten : Obligations.StoredBytesAreNeverOverwritten := by
  intro s t hstep
  obtain ⟨-, hclear | ⟨u, rfl | rfl, hwrites⟩⟩ | ⟨v, -, rfl | rfl⟩ := step_shape hstep
  · exact .inl (by rw [hclear.dec]; rfl)
  · refine .inr fun a w hread => ?_
    rw [readByte, hwrites.buffer]
    exact hread
  · exact .inl rfl
  · refine .inr fun a w hread => ?_
    obtain ⟨hlt, -⟩ := List.getElem?_eq_some_iff.mp hread
    rw [readByte_bufAppend_other v (beginEdge s) (Nat.ne_of_lt hlt)]
    exact hread
  · exact .inl rfl

/-- A step adds at most one event (R34). -/
theorem step_events {s t : State} (h : step s = .next t) : ∃ es, t.events = s.events ++ es ∧ es.length ≤ 1 := by
  obtain ⟨-, hevents⟩ | ⟨-, hevents⟩ := frameStrobeMarksTheStepThatEmits s t h
  · exact ⟨[], hevents.trans (List.append_nil _).symm, Nat.zero_le 1⟩
  · exact ⟨_, hevents, le_refl 1⟩

/-- Settles O40, by induction on the number of steps. -/
theorem eventsAreOnlyAppended : Obligations.EventsAreOnlyAppended := by
  intro n
  induction n with
  | zero => rintro s t ⟨⟩; exact ⟨[], (List.append_nil _).symm, le_refl 0⟩
  | succ n ih =>
    intro s t hrun
    obtain ⟨u, hstep, hrun'⟩ := run_succ_next hrun
    obtain ⟨first, hfirst, hone⟩ := step_events hstep
    obtain ⟨later, hlater, hle⟩ := ih u t hrun'
    refine ⟨first ++ later, by rw [hlater, hfirst, List.append_assoc], ?_⟩
    rw [List.length_append]
    omega

end Sys2Proof.Machine
end

section
/-! The frames of the operations that complete no frame (10_state.md section 1, 20_memory.md section 1): the fields each
writes, and that nothing else changes. -/

namespace Sys2Proof.Machine

/-- Completion adds an event, so an outcome with the events of before is not one of completion. -/
theorem complete_events_ne (s : State) : (complete s).events ≠ s.events := by
  simp

/-! ### Header operations -/

/-- What a step that writes header fields leaves unchanged, index by index of the payload buffer. -/
theorem WritesHeader.unchanged {s t : State} (h : WritesHeader s t) :
    t.out = s.out ∧ t.capacity = s.capacity ∧ t.input = s.input ∧ ∀ a, readByte t a = readByte s a := by
  refine ⟨?_, ?_, ?_, fun a => by rw [readByte, h.buffer]; rfl⟩
  all_goals rw [h.frame]

/-- A header operation from `s` that ends at `t` with the decoder state `d`, but for `st` and the two counters:
`key_cnt` changes only on the way to the mask key (R100). -/
structure EndsHeaderField (s : State) (d : DecoderState) (t : State) : Prop where
  dec : t.dec = { d with st := t.dec.st, keyCnt := t.dec.keyCnt, extCnt := t.dec.extCnt }
  keyCnt : t.dec.keyCnt ≠ d.keyCnt → t.dec.st = .awaitMask
  writes : WritesHeader s t

/-- The end of a length field that completes no frame (R100). -/
theorem afterLength_frame {s t : State} {d : DecoderState} (h : afterLength { s with dec := d } = .next t)
    (hevents : t.events = s.events) (hbuffer : d.payloadBuffer = s.dec.payloadBuffer) :
    EndsHeaderField s d t ∧ t.dec.extCnt = d.extCnt := by
  obtain ⟨-, ⟨-, rfl⟩ | ⟨-, -, rfl⟩ | ⟨-, -, rfl⟩⟩ := afterLength_next h
  · exact ⟨⟨rfl, fun _ => rfl, rfl, hbuffer⟩, rfl⟩
  · exact absurd hevents (complete_events_ne { s with dec := d })
  · exact ⟨⟨rfl, fun hne => absurd rfl hne, rfl, hbuffer⟩, rfl⟩

/-- A byte of an extended length that completes no frame (R105, R106). -/
theorem collectLength_frame {last : BitVec 3} {b : Byte} {s t : State} (h : collectLength last b s = .next t)
    (hevents : t.events = s.events) : EndsHeaderField s { s.dec with length := shiftInByte s.dec.length b } t := by
  obtain ⟨-, hafter⟩ | ⟨-, rfl⟩ := collectLength_next h
  · obtain ⟨hends, -⟩ := afterLength_frame (s := s) (d := { s.dec with length := _, extCnt := 0 }) hafter hevents rfl
    exact ⟨hends.dec, hends.keyCnt, hends.writes⟩
  · exact ⟨rfl, fun hne => absurd rfl hne, rfl, rfl⟩

/-- A key byte that completes no frame: it is written to slot `key_cnt`, whatever follows (R120). -/
theorem execMaskKey_frame {b : Byte} {s t : State} (h : exec (.maskKey b) s = .next t) (hevents : t.events = s.events) :
    t.dec = { s.dec with st := t.dec.st, maskKey := (keyWrite s.dec.keyCnt b s).dec.maskKey, keyCnt := t.dec.keyCnt } ∧
      WritesHeader s t := by
  obtain ⟨-, -, rfl⟩ | ⟨-, -, rfl⟩ | ⟨-, rfl⟩ := execMaskKey_next h
  · exact absurd hevents (complete_events_ne (setKeyCnt 0 (keyWrite s.dec.keyCnt b s)))
  · exact ⟨rfl, rfl, rfl⟩
  · exact ⟨rfl, rfl, rfl⟩

/-- LEN7 that completes no frame (R102). -/
theorem execLen7_frame {m : Bool} {indicator : Indicator} {s t : State} (h : exec (.len7 m indicator) s = .next t)
    (hevents : t.events = s.events) :
    t.dec = { s.dec with st := t.dec.st, masked := m, length := indicator.setWidth 64, keyCnt := t.dec.keyCnt } ∧
      (t.dec.keyCnt ≠ s.dec.keyCnt → t.dec.st = .awaitMask) ∧ WritesHeader s t := by
  rw [exec_len7] at h
  obtain ⟨hends, hext⟩ := afterLength_frame (s := s) h hevents rfl
  refine ⟨?_, hends.keyCnt, hends.writes⟩
  have hdec := hends.dec
  rwa [hext] at hdec

/-- LEN16 and LEN64 (R103, R104). -/
theorem execExtended_frame {i : Instr} {m : Bool} {s t : State} (hi : i = .len16 m ∨ i = .len64 m)
    (h : exec i s = .next t) :
    t.dec = { s.dec with st := t.dec.st, masked := m, length := 0, extCnt := 0 } ∧ t.events = s.events ∧
      WritesHeader s t := by
  obtain rfl | rfl := hi
  · cases h; exact ⟨rfl, rfl, rfl, rfl⟩
  · cases h; exact ⟨rfl, rfl, rfl, rfl⟩

/-- EXT16 and EXT64 that complete no frame (R105, R106). -/
theorem execCollect_frame {i : Instr} {b : Byte} {s t : State} (hi : i = .ext16 b ∨ i = .ext64 b)
    (h : exec i s = .next t) (hevents : t.events = s.events) :
    EndsHeaderField s { s.dec with length := shiftInByte s.dec.length b } t := by
  obtain rfl | rfl := hi
  · exact collectLength_frame h hevents
  · exact collectLength_frame h hevents

/-- Settles O42, clause by clause: each operation's written fields, and what `WritesHeader` leaves. -/
theorem headerOperationsFrame : Obligations.HeaderOperationsFrame := by
  refine ⟨?_, ?_, ?_, ?_, ?_⟩
  · rintro s t fin rsv opcode ⟨⟩
    exact ⟨rfl, rfl, rfl, rfl, rfl, fun _ => rfl⟩
  · intro s t m indicator h hevents
    obtain ⟨hdec, hkey, hwrites⟩ := execLen7_frame h hevents
    exact ⟨hdec, hkey, hwrites.unchanged⟩
  · intro s t i m hi h
    obtain ⟨hdec, hevents, hwrites⟩ := execExtended_frame hi h
    obtain ⟨hout, hrest⟩ := hwrites.unchanged
    exact ⟨hdec, hout, hevents, hrest⟩
  · intro s t i b hi h hevents
    obtain ⟨hdec, hkey, hwrites⟩ := execCollect_frame hi h hevents
    exact ⟨hdec, hkey, hwrites.unchanged⟩
  · intro s t b h hevents
    obtain ⟨hdec, hwrites⟩ := execMaskKey_frame h hevents
    have hkey : ∀ j, keyRead j t = keyRead j (keyWrite s.dec.keyCnt b s) := fun j => by
      unfold keyRead
      rw [hdec]
    refine ⟨?_, fun j hne => ?_, ?_, hwrites.unchanged⟩
    · rw [hdec]
    · rw [hkey, keyRead_keyWrite_other hne.symm]
    · rw [hkey, keyRead_keyWrite_same]

/-! ### Body operations -/

/-- A body operation that completes no frame is an append (R121, R122). -/
theorem eq_bufAppend_of_stores {i : Instr} {s t : State} {v : Byte} (hstores : Stores i s v) (h : exec i s = .next t)
    (hevents : t.events = s.events) : t = bufAppend v s := by
  rw [exec_of_stores hstores] at h
  obtain ⟨-, hfinish⟩ | ⟨-, hfinish⟩ := finishBody_cases s.dec.pos (bufAppend v s)
  · rw [hfinish] at h
    cases h
    exact absurd hevents (complete_events_ne (bufAppend v s))
  · rw [hfinish] at h
    cases h
    rfl

/-- Settles O43: the frame of an append. -/
theorem bodyOperationsFrame : Obligations.BodyOperationsFrame := by
  intro s t i b v hi h hevents
  cases eq_bufAppend_of_stores ⟨b, hi⟩ h hevents
  exact ⟨rfl, rfl, rfl, readByte_bufAppend_pos v s, fun _ hne => readByte_bufAppend_other v s hne⟩

/-- Settles O41: each operation's frame names the fields it writes, and no other field changes. -/
theorem fieldsHaveOnlyTheirWriters : Obligations.FieldsHaveOnlyTheirWriters := by
  intro s t i hreset h hevents
  cases i with
  | first => cases h; simp
  | len7 =>
    obtain ⟨hdec, -⟩ := execLen7_frame h hevents
    rw [hdec]
    simp
  | len16 =>
    obtain ⟨hdec, -⟩ := execExtended_frame (.inl rfl) h
    rw [hdec]
    simp
  | len64 =>
    obtain ⟨hdec, -⟩ := execExtended_frame (.inr rfl) h
    rw [hdec]
    simp
  | ext16 =>
    obtain ⟨hdec, -⟩ := execCollect_frame (.inl rfl) h hevents
    rw [hdec]
    simp
  | ext64 =>
    obtain ⟨hdec, -⟩ := execCollect_frame (.inr rfl) h hevents
    rw [hdec]
    simp
  | maskKey =>
    obtain ⟨hdec, -⟩ := execMaskKey_frame h hevents
    rw [hdec]
    simp
  | bodyMasked b => cases eq_bufAppend_of_stores ⟨b, .inl ⟨rfl, rfl⟩⟩ h hevents; simp
  | bodyUnmasked b => cases eq_bufAppend_of_stores ⟨b, .inr ⟨rfl, rfl⟩⟩ h hevents; simp
  | reset => exact absurd rfl hreset

end Sys2Proof.Machine
end

section
/-! The invariant of R30 (10_state.md section 2): each operation keeps it in the control state that selects it, and
with it the length of every event's payload, the capacity bound and the agreement of the event outputs. -/

namespace Sys2Proof.Machine

/-! ### The rows of the invariant -/

/-- The row of `AWAIT_LEN` (R30). -/
theorem DecoderState.inv_iff_of_awaitLen {d : DecoderState} (hst : d.st = .awaitLen) :
    d.Inv ↔ d = { DecoderState.reset with st := .awaitLen, opcode := d.opcode, fin := d.fin } := by
  unfold DecoderState.Inv
  rw [hst]

/-- The rows of `AWAIT_EXT16` and `AWAIT_EXT64`, which differ in the bound of `ext_cnt` alone (R30). -/
theorem DecoderState.inv_iff_of_collects {d : DecoderState} {last : BitVec 3} (hst : CollectsUpTo d.st last) :
    d.Inv ↔ d = { DecoderState.reset with st := d.st, opcode := d.opcode, fin := d.fin, masked := d.masked,
                                          length := d.length, extCnt := d.extCnt } ∧
      d.extCnt.toNat ≤ last.toNat ∧ d.length.toNat < 256 ^ d.extCnt.toNat := by
  unfold DecoderState.Inv
  obtain ⟨hst, rfl⟩ | ⟨hst, rfl⟩ := hst
  · rw [hst]; rfl
  · rw [hst]; rfl

/-- The row of `AWAIT_MASK` (R30). -/
theorem DecoderState.inv_iff_of_awaitMask {d : DecoderState} (hst : d.st = .awaitMask) :
    d.Inv ↔ d = { DecoderState.reset with st := .awaitMask, opcode := d.opcode, fin := d.fin, masked := d.masked,
                                          length := d.length, maskKey := d.maskKey, keyCnt := d.keyCnt } ∧
      d.masked = true ∧ d.keyCnt.toNat ≤ 3 ∧ ∀ i : Fin 4, d.keyCnt.toNat ≤ i.val → d.maskKey[i] = 0 := by
  unfold DecoderState.Inv
  rw [hst]

/-- The row of `AWAIT_BODY` (R30). -/
theorem DecoderState.inv_iff_of_awaitBody {d : DecoderState} (hst : d.st = .awaitBody) :
    d.Inv ↔ d = { DecoderState.reset with st := .awaitBody, opcode := d.opcode, fin := d.fin, masked := d.masked,
                                          length := d.length, maskKey := d.maskKey, payloadBuffer := d.payloadBuffer } ∧
      1 ≤ d.length.toNat ∧ d.pos < d.length.toNat ∧ (d.masked = false → d.maskKey = #v[0, 0, 0, 0]) := by
  unfold DecoderState.Inv
  rw [hst]

/-- The reset state is the row of `AWAIT_FIRST` (R30, R33). -/
theorem DecoderState.inv_reset : DecoderState.reset.Inv := rfl

/-- The buffer is empty but for `AWAIT_BODY`, and there it is shorter than `length` (R29, R30). -/
theorem DecoderState.Inv.buffer {d : DecoderState} (h : d.Inv) :
    d.payloadBuffer = [] ∨ (d.st = .awaitBody ∧ d.pos < d.length.toNat) := by
  cases hst : d.st with
  | awaitFirst => exact .inl (by rw [h.eq_reset hst]; rfl)
  | awaitLen => exact .inl (by rw [(inv_iff_of_awaitLen hst).mp h]; rfl)
  | awaitExt16 =>
    obtain ⟨hd, -⟩ := (inv_iff_of_collects (.inl ⟨hst, rfl⟩)).mp h
    exact .inl (by rw [hd]; rfl)
  | awaitExt64 =>
    obtain ⟨hd, -⟩ := (inv_iff_of_collects (.inr ⟨hst, rfl⟩)).mp h
    exact .inl (by rw [hd]; rfl)
  | awaitMask =>
    obtain ⟨hd, -⟩ := (inv_iff_of_awaitMask hst).mp h
    exact .inl (by rw [hd]; rfl)
  | awaitBody =>
    obtain ⟨-, -, hpos, -⟩ := (inv_iff_of_awaitBody hst).mp h
    exact .inr ⟨rfl, hpos⟩

/-! ### What each shared operation makes of the invariant -/

/-- The part of the invariant that does not speak of the outputs. -/
structure State.CoreInv (s : State) : Prop where
  dec : s.dec.Inv
  events : ∀ f ∈ s.events, f.Inv
  capacity : s.WithinCapacity

/-- The capacity bound says nothing while a header is incomplete (R60). -/
theorem withinCapacity_of_st {s : State} (hmask : s.dec.st ≠ .awaitMask) (hbody : s.dec.st ≠ .awaitBody) :
    s.WithinCapacity := by
  rintro (hst | hst)
  · exact absurd hst hmask
  · exact absurd hst hbody

/-- A cleared decoder meets its row, whatever else the state holds. -/
theorem coreInv_of_reset {s : State} (hdec : s.dec = DecoderState.reset) (hevents : ∀ f ∈ s.events, f.Inv) :
    s.CoreInv :=
  ⟨hdec ▸ DecoderState.inv_reset, hevents, withinCapacity_of_st (by rw [hdec]; decide) (by rw [hdec]; decide)⟩

/-- Completion with a payload of exactly `length` bytes (R34, R123). -/
theorem coreInv_complete {s : State} (hevents : ∀ f ∈ s.events, f.Inv) (hlen : s.dec.pos = s.dec.length.toNat) :
    (complete s).CoreInv := by
  refine coreInv_of_reset rfl fun f hf => ?_
  obtain hf | hf := List.mem_append.mp hf
  · exact hevents f hf
  · cases List.mem_singleton.mp hf
    exact hlen

/-- The end of a length field (R100). -/
theorem coreInv_afterLength {s t : State} {c : Ctl} {opcode : Opcode} {fin masked : Bool} {length : Len}
    (h : afterLength s = .next t) (hevents : ∀ f ∈ s.events, f.Inv)
    (hdec : s.dec = { DecoderState.reset with
      st := c, opcode := opcode, fin := fin, masked := masked, length := length }) : t.CoreInv := by
  obtain ⟨hfits, hcase⟩ := afterLength_next h
  rw [fits_iff] at hfits
  obtain ⟨hm, rfl⟩ | ⟨hm, hl, rfl⟩ | ⟨hm, hl, rfl⟩ := hcase
  · refine ⟨?_, hevents, fun _ => hfits⟩
    rw [goTo_dec, setKeyCnt_dec, hdec]
    rw [hdec] at hm
    refine ⟨rfl, hm, Nat.zero_le 3, fun i _ => ?_⟩
    fin_cases i <;> rfl
  · refine coreInv_complete hevents ?_
    rw [hl, hdec]
    rfl
  · refine ⟨?_, hevents, fun _ => hfits⟩
    rw [goTo_dec, hdec]
    rw [hdec] at hl
    have hpos : 0 < length.toNat := Nat.pos_of_ne_zero fun hz => hl (BitVec.eq_of_toNat_eq hz)
    exact ⟨rfl, hpos, hpos, fun _ => rfl⟩

/-- A header that collects its length is incomplete (R21). -/
theorem CollectsUpTo.st_ne {st : Ctl} {last : BitVec 3} (h : CollectsUpTo st last) :
    st ≠ .awaitMask ∧ st ≠ .awaitBody := by
  obtain ⟨rfl, -⟩ | ⟨rfl, -⟩ := h
  · exact ⟨by decide, by decide⟩
  · exact ⟨by decide, by decide⟩

/-- One byte of an extended length (R105, R106). -/
theorem coreInv_collectLength {last : BitVec 3} {b : Byte} {s t : State} (hst : CollectsUpTo s.dec.st last)
    (hinv : s.CoreInv) (h : collectLength last b s = .next t) : t.CoreInv := by
  obtain ⟨hd, hcnt, hlen⟩ := (DecoderState.inv_iff_of_collects hst).mp hinv.dec
  obtain ⟨-, hafter⟩ | ⟨hne, rfl⟩ := collectLength_next h
  · have hd' := congrArg (fun d : DecoderState => { d with length := shiftInByte s.dec.length b, extCnt := 0 }) hd
    exact coreInv_afterLength hafter hinv.events hd'
  · have hlt : s.dec.extCnt.toNat < last.toNat :=
      Nat.lt_of_le_of_ne hcnt fun he => hne (BitVec.eq_of_toNat_eq he)
    have hlast : last.toNat < 8 := last.isLt
    have hnext : (s.dec.extCnt + 1).toNat = s.dec.extCnt.toNat + 1 := by
      rw [BitVec.toNat_add]; exact Nat.mod_eq_of_lt (show s.dec.extCnt.toNat + 1 < 8 by omega)
    have hb : b.toNat < 256 := b.isLt
    refine ⟨(DecoderState.inv_iff_of_collects (last := last) (by exact hst)).mpr ⟨?_, ?_, ?_⟩, hinv.events, ?_⟩
    · exact congrArg (fun d : DecoderState =>
        { d with length := shiftInByte s.dec.length b, extCnt := s.dec.extCnt + 1 }) hd
    · show (s.dec.extCnt + 1).toNat ≤ last.toNat
      omega
    · show (shiftInByte s.dec.length b).toNat < 256 ^ (s.dec.extCnt + 1).toNat
      rw [hinv.dec.shiftInByte_exact hst, hnext, pow_succ]
      omega
    · obtain ⟨hmask, hbody⟩ := hst.st_ne
      exact withinCapacity_of_st hmask hbody

/-- A key byte (R120). -/
theorem coreInv_maskKey {b : Byte} {s t : State} (hst : s.dec.st = .awaitMask) (hinv : s.CoreInv)
    (h : exec (.maskKey b) s = .next t) : t.CoreInv := by
  obtain ⟨hd, hmasked, -, hslots⟩ := (DecoderState.inv_iff_of_awaitMask hst).mp hinv.dec
  have hcap := hinv.capacity (.inl hst)
  obtain ⟨-, hl, rfl⟩ | ⟨-, hl, rfl⟩ | ⟨hne, rfl⟩ := execMaskKey_next h
  · refine coreInv_complete hinv.events ?_
    show s.dec.payloadBuffer.length = s.dec.length.toNat
    rw [hl, hd]
    rfl
  · have hpos : 0 < s.dec.length.toNat := Nat.pos_of_ne_zero fun hz => hl (BitVec.eq_of_toNat_eq hz)
    refine ⟨(DecoderState.inv_iff_of_awaitBody (by exact rfl)).mpr ⟨?_, hpos, ?_, ?_⟩, hinv.events, fun _ => hcap⟩
    · exact congrArg (fun d : DecoderState =>
        { d with st := .awaitBody, maskKey := s.dec.maskKey.set s.dec.keyCnt.toNat b, keyCnt := 0
                 payloadBuffer := s.dec.payloadBuffer }) hd
    · show s.dec.payloadBuffer.length < s.dec.length.toNat
      rw [hd]
      exact hpos
    · intro hplain
      cases hmasked.symm.trans hplain
  · have hcnt : s.dec.keyCnt.toNat < 4 := s.dec.keyCnt.isLt
    have hlt : s.dec.keyCnt.toNat ≠ 3 := fun he => hne (BitVec.eq_of_toNat_eq he)
    have hnext : (s.dec.keyCnt + 1).toNat = s.dec.keyCnt.toNat + 1 := by
      rw [BitVec.toNat_add]; exact Nat.mod_eq_of_lt (show s.dec.keyCnt.toNat + 1 < 4 by omega)
    refine ⟨(DecoderState.inv_iff_of_awaitMask (by exact hst)).mpr ⟨?_, hmasked, ?_, fun i hi => ?_⟩, hinv.events,
      fun _ => hcap⟩
    · exact congrArg (fun d : DecoderState =>
        { d with maskKey := s.dec.maskKey.set s.dec.keyCnt.toNat b, keyCnt := s.dec.keyCnt + 1 }) hd
    · show (s.dec.keyCnt + 1).toNat ≤ 3
      omega
    · have hi : (s.dec.keyCnt + 1).toNat ≤ i.val := hi
      show (s.dec.maskKey.set s.dec.keyCnt.toNat b)[i.val] = 0
      rw [Vector.getElem_set_ne _ _ (by omega)]
      exact hslots i (by omega)

/-- A body byte (R121, R122). -/
theorem coreInv_of_stores {i : Instr} {v : Byte} {s t : State} (hst : s.dec.st = .awaitBody) (hinv : s.CoreInv)
    (hstores : Stores i s v) (h : exec i s = .next t) : t.CoreInv := by
  obtain ⟨hd, hlen, hpos, hkey⟩ := (DecoderState.inv_iff_of_awaitBody hst).mp hinv.dec
  have happend : (bufAppend v s).dec.pos = s.dec.pos + 1 := List.length_append
  rw [exec_of_stores hstores] at h
  obtain ⟨hlast, hfinish⟩ | ⟨hmore, hfinish⟩ := finishBody_cases s.dec.pos (bufAppend v s)
  · rw [hfinish] at h
    cases h
    exact coreInv_complete hinv.events (happend.trans hlast)
  · rw [hfinish] at h
    cases h
    refine ⟨(DecoderState.inv_iff_of_awaitBody (by exact hst)).mpr ⟨?_, hlen, ?_, hkey⟩, hinv.events, hinv.capacity⟩
    · exact congrArg (fun d : DecoderState => { d with payloadBuffer := s.dec.payloadBuffer ++ [v] }) hd
    · rw [happend]
      exact Nat.lt_of_le_of_ne hpos hmore

/-! ### Every step -/

/-- Every operation keeps the invariant in a control state that selects it. -/
theorem exec_keeps_coreInv {i : Instr} {s t : State} (hinv : s.CoreInv)
    (hsel : i.selectedIn s.dec.st s.dec.masked = true) (h : exec i s = .next t) : t.CoreInv := by
  cases i with
  | first fin rsv opcode =>
    have hd := hinv.dec.eq_reset (of_decide_eq_true hsel)
    cases h
    refine ⟨(DecoderState.inv_iff_of_awaitLen rfl).mpr ?_, hinv.events,
      withinCapacity_of_st Ctl.noConfusion Ctl.noConfusion⟩
    exact congrArg (fun d : DecoderState => { d with st := .awaitLen, opcode := opcode, fin := fin }) hd
  | len7 mask indicator =>
    have hd := (DecoderState.inv_iff_of_awaitLen (of_decide_eq_true hsel)).mp hinv.dec
    rw [exec_len7] at h
    have hd' := congrArg (fun d : DecoderState => { d with masked := mask, length := indicator.setWidth 64 }) hd
    exact coreInv_afterLength h hinv.events hd'
  | len16 mask =>
    have hd := (DecoderState.inv_iff_of_awaitLen (of_decide_eq_true hsel)).mp hinv.dec
    cases h
    refine ⟨(DecoderState.inv_iff_of_collects (.inl ⟨rfl, rfl⟩)).mpr ⟨?_, Nat.zero_le 1, Nat.one_pos⟩, hinv.events,
      withinCapacity_of_st Ctl.noConfusion Ctl.noConfusion⟩
    exact congrArg (fun d : DecoderState =>
      { d with st := .awaitExt16, masked := mask, length := 0, extCnt := 0 }) hd
  | len64 mask =>
    have hd := (DecoderState.inv_iff_of_awaitLen (of_decide_eq_true hsel)).mp hinv.dec
    cases h
    refine ⟨(DecoderState.inv_iff_of_collects (.inr ⟨rfl, rfl⟩)).mpr ⟨?_, Nat.zero_le 7, Nat.one_pos⟩, hinv.events,
      withinCapacity_of_st Ctl.noConfusion Ctl.noConfusion⟩
    exact congrArg (fun d : DecoderState =>
      { d with st := .awaitExt64, masked := mask, length := 0, extCnt := 0 }) hd
  | ext16 b => exact coreInv_collectLength (.inl ⟨of_decide_eq_true hsel, rfl⟩) hinv h
  | ext64 b => exact coreInv_collectLength (.inr ⟨of_decide_eq_true hsel, rfl⟩) hinv h
  | maskKey b => exact coreInv_maskKey (of_decide_eq_true hsel) hinv h
  | bodyMasked b =>
    obtain ⟨hst, -⟩ := Bool.and_eq_true_iff.mp hsel
    exact coreInv_of_stores (of_decide_eq_true hst) hinv ⟨b, .inl ⟨rfl, rfl⟩⟩ h
  | bodyUnmasked b =>
    obtain ⟨hst, -⟩ := Bool.and_eq_true_iff.mp hsel
    exact coreInv_of_stores (of_decide_eq_true hst) hinv ⟨b, .inr ⟨rfl, rfl⟩⟩ h
  | reset =>
    cases h
    exact coreInv_of_reset rfl hinv.events

/-- The operation an edge selects is one of the control state it is decoded in (R81). -/
theorem selectedIn_of_decode {st : Ctl} {masked : Bool} {e : Edge} {i : Instr} (h : decode st masked e = .operation i) :
    i.selectedIn st masked = true := by
  unfold decode at h
  split at h
  · cases h; rfl
  · split at h
    · cases h
    · split at h
      · cases h; exact (decodeByte_isOperationOf st masked e.inByte).selected
      · cases h

/-- Every step keeps the invariant but for the outputs. -/
theorem step_keeps_coreInv {s t : State} (hinv : s.CoreInv) (h : step s = .next t) : t.CoreInv := by
  have hbegin : (beginEdge s).CoreInv := ⟨hinv.dec, hinv.events, hinv.capacity⟩
  obtain ⟨i, hi, hexec⟩ | ⟨-, rfl⟩ | ⟨-, rfl⟩ := step_next h
  · exact exec_keeps_coreInv hbegin (selectedIn_of_decode hi) hexec
  · exact hbegin
  · exact coreInv_of_reset rfl hinv.events

/-- After every step the event outputs show the newest event while `frm_valid` is 1 (R35). -/
theorem step_frmShowsLastEvent {s t : State} (h : step s = .next t) : t.FrmShowsLastEvent := by
  intro hfrm
  obtain ⟨hnone, -⟩ | ⟨-, hevents⟩ := frameStrobeMarksTheStepThatEmits s t h
  · cases hnone.symm.trans hfrm
  · exact ⟨_, (congrArg List.getLast? hevents).trans List.getLast?_concat, rfl, rfl, rfl, rfl⟩

/-- Settles O35: the invariant but for the outputs is kept, and the event outputs agree after every step. -/
theorem everyStepKeepsTheInvariant : Obligations.EveryStepKeepsTheInvariant := by
  intro s t hinv hstep
  obtain ⟨hdec, hevents, hcap⟩ := step_keeps_coreInv ⟨hinv.dec, hinv.events, hinv.capacity⟩ hstep
  exact ⟨hdec, hevents, hcap, step_frmShowsLastEvent hstep⟩

/-- Settles O34: no event, and both strobes 0. -/
theorem resetStateMeetsTheInvariant : Obligations.ResetStateMeetsTheInvariant := by
  obtain ⟨hdec, hevents, hcap⟩ := coreInv_of_reset (s := State.reset) rfl (fun f hf => absurd hf List.not_mem_nil)
  exact ⟨hdec, hevents, hcap, fun hfrm => absurd hfrm Bool.noConfusion⟩

/-- Settles O36, by the invariant of the state after the step. -/
theorem payloadBufferStaysBelowLength : Obligations.PayloadBufferStaysBelowLength := by
  intro s t hinv hstep
  have hinv' : t.dec.Inv := (everyStepKeepsTheInvariant s t hinv hstep).dec
  obtain hempty | ⟨hst, hpos⟩ := hinv'.buffer
  · have hzero : t.dec.pos = 0 := List.length_eq_zero_iff.mpr hempty
    exact ⟨decide_eq_true (by omega), fun hne => absurd hempty hne⟩
  · exact ⟨decide_eq_true hpos.le, fun _ => ⟨hst, hpos⟩⟩

end Sys2Proof.Machine
end

section
/-! What steers nothing (10_state.md, 20_memory.md section 5, 30_encoding.md): runs of two states are compared through a
relation that every operation keeps. The reserved bits, the edges still to come, idle edges, `opcode` and `fin`. -/

namespace Sys2Proof.Machine

/-! ### Relations that every operation keeps -/

/-- Two decoder states that differ in `opcode` and `fin` at most. -/
def DifferInTags (d d' : DecoderState) : Prop := ∃ opcode fin, d' = { d with opcode := opcode, fin := fin }

/-- A write of decoder fields that makes no field but `opcode` and `fin` depend on `opcode` or `fin`. -/
def IgnoresTags (g : DecoderState → DecoderState) : Prop := ∀ d d', DifferInTags d d' → DifferInTags (g d) (g d')

/-- A relation of states that agree in all that the operations read, kept by all that the operations do. -/
structure Simulation (ρ : State → State → Prop) : Prop where
  dec : ∀ {s s'}, ρ s s' → DifferInTags s.dec s'.dec
  capacity : ∀ {s s'}, ρ s s' → s'.capacity = s.capacity
  write : ∀ {s s'} (g : DecoderState → DecoderState), IgnoresTags g → ρ s s' →
    ρ { s with dec := g s.dec } { s' with dec := g s'.dec }
  append : ∀ {s s'} (v : Byte), ρ s s' → ρ (bufAppend v s) (bufAppend v s')
  complete : ∀ {s s'}, ρ s s' → ρ (complete s) (complete s')
  resetOutputs : ∀ {s s'}, ρ s s' → ρ { s with out := Outputs.reset } { s' with out := Outputs.reset }

/-- Two outcomes with related next states, or refused for the same reason. -/
def Related (ρ : State → State → Prop) (r r' : Result) : Prop :=
  (∃ t t', r = .next t ∧ r' = .next t' ∧ ρ t t') ∨ ∃ reason, r = .refused reason ∧ r' = .refused reason

theorem Related.next {ρ : State → State → Prop} {t t' : State} (h : ρ t t') : Related ρ (.next t) (.next t') :=
  .inl ⟨t, t', rfl, rfl, h⟩

theorem Related.refused {ρ : State → State → Prop} (reason : Refusal) :
    Related ρ (.refused reason) (.refused reason) := .inr ⟨reason, rfl, rfl⟩

/-- A next state on one side comes with a related one on the other. -/
theorem Related.exists_next {ρ : State → State → Prop} {r r' : Result} {t : State} (h : Related ρ r r')
    (hr : r = .next t) : ∃ t', r' = .next t' ∧ ρ t t' := by
  obtain ⟨u, t', hu, hr', hρ⟩ | ⟨reason, hrefused, -⟩ := h
  · cases hr.symm.trans hu
    exact ⟨t', hr', hρ⟩
  · cases hr.symm.trans hrefused

section
variable {ρ : State → State → Prop} {s s' : State}

/-- A write of decoder fields keeps the relation. That it leaves the tags alone, or writes them, is seen by `rfl`. -/
theorem Simulation.update (hρ : Simulation ρ) (h : ρ s s') (g : DecoderState → DecoderState)
    (hg : ∀ d opcode fin, DifferInTags (g d) (g { d with opcode := opcode, fin := fin }) := by
      exact fun _ _ _ => ⟨_, _, rfl⟩) : ρ { s with dec := g s.dec } { s' with dec := g s'.dec } := by
  refine hρ.write g ?_ h
  rintro d _ ⟨opcode, fin, rfl⟩
  exact hg d opcode fin

/-- The end of a length field reads `masked`, `length` and the capacity alone (R100). -/
theorem Simulation.afterLength (hρ : Simulation ρ) (h : ρ s s') : Related ρ (afterLength s) (afterLength s') := by
  obtain ⟨opcode, fin, hdec⟩ := hρ.dec h
  have hmasked : s'.dec.masked = s.dec.masked := by rw [hdec]
  have hlength : s'.dec.length = s.dec.length := by rw [hdec]
  unfold Machine.afterLength
  rw [hρ.capacity h, hmasked, hlength]
  split
  · split
    · exact .next (hρ.update h fun d => { d with keyCnt := 0, st := .awaitMask } :)
    · split
      · exact .next (hρ.complete h)
      · exact .next (hρ.update h fun d => { d with st := .awaitBody } :)
  · exact .refused _

/-- A byte of an extended length reads `length` and `ext_cnt` too (R105, R106). -/
theorem Simulation.collectLength (hρ : Simulation ρ) (h : ρ s s') (last : BitVec 3) (b : Byte) :
    Related ρ (collectLength last b s) (collectLength last b s') := by
  obtain ⟨opcode, fin, hdec⟩ := hρ.dec h
  have hlength : s'.dec.length = s.dec.length := by rw [hdec]
  have hextCnt : s'.dec.extCnt = s.dec.extCnt := by rw [hdec]
  unfold Machine.collectLength
  rw [hlength, hextCnt]
  split
  · exact hρ.afterLength (hρ.update h fun d => { d with length := shiftInByte s.dec.length b, extCnt := 0 } :)
  · exact .next (hρ.update h fun d => { d with length := shiftInByte s.dec.length b, extCnt := s.dec.extCnt + 1 } :)

/-- A key byte reads `key_cnt` and `length` alone (R120). -/
theorem Simulation.execMaskKey (hρ : Simulation ρ) (h : ρ s s') (b : Byte) :
    Related ρ (execMaskKey b s) (execMaskKey b s') := by
  obtain ⟨opcode, fin, hdec⟩ := hρ.dec h
  have hlength : s'.dec.length = s.dec.length := by rw [hdec]
  have hkeyCnt : s'.dec.keyCnt = s.dec.keyCnt := by rw [hdec]
  have hwrite (v : BitVec 2) : ρ (setKeyCnt v (keyWrite s.dec.keyCnt b s)) (setKeyCnt v (keyWrite s.dec.keyCnt b s')) :=
    hρ.update h fun d => { d with maskKey := d.maskKey.set s.dec.keyCnt.toNat b, keyCnt := v }
  unfold Machine.execMaskKey
  rw [hlength, hkeyCnt]
  split
  · split
    · exact .next (hρ.complete (hwrite 0))
    · exact .next (hρ.update (hwrite 0) fun d => { d with st := .awaitBody } :)
  · exact .next (hwrite _)

/-- A body byte reads the key, `length` and the position alone (R121, R122). -/
theorem Simulation.exec_of_stores (hρ : Simulation ρ) (h : ρ s s') {i : Instr} {v : Byte} (hstores : Stores i s v) :
    Related ρ (exec i s) (exec i s') := by
  obtain ⟨opcode, fin, hdec⟩ := hρ.dec h
  have hlength : s'.dec.length = s.dec.length := by rw [hdec]
  have hpos : s'.dec.pos = s.dec.pos := by rw [hdec]; rfl
  have hstores' : Stores i s' v := by rw [Stores, hpos, hdec]; exact hstores
  rw [Machine.exec_of_stores hstores, Machine.exec_of_stores hstores']
  unfold finishBody
  rw [hpos, bufAppend_dec, bufAppend_dec, hlength]
  split
  · exact .next (hρ.complete (hρ.append v h))
  · exact .next (hρ.append v h)

/-- Every operation answers related outcomes from related states. -/
theorem Simulation.exec (hρ : Simulation ρ) (h : ρ s s') (i : Instr) : Related ρ (exec i s) (exec i s') := by
  cases i with
  | first fin rsv opcode =>
    exact .next (hρ.update h fun d => { d with opcode := opcode, fin := fin, st := .awaitLen } :)
  | len7 mask indicator =>
    exact hρ.afterLength (hρ.update h fun d => { d with masked := mask, length := indicator.setWidth 64 } :)
  | len16 mask =>
    exact .next (hρ.update h fun d => { d with masked := mask, length := 0, extCnt := 0, st := .awaitExt16 } :)
  | len64 mask =>
    exact .next (hρ.update h fun d => { d with masked := mask, length := 0, extCnt := 0, st := .awaitExt64 } :)
  | ext16 b => exact hρ.collectLength h 1 b
  | ext64 b => exact hρ.collectLength h 7 b
  | maskKey b => exact hρ.execMaskKey h b
  | bodyMasked b => exact hρ.exec_of_stores h ⟨b, .inl ⟨rfl, rfl⟩⟩
  | bodyUnmasked b => exact hρ.exec_of_stores h ⟨b, .inr ⟨rfl, rfl⟩⟩
  | reset =>
    exact .next (hρ.resetOutputs (hρ.update h fun _ => DecoderState.reset :))

/-- Steps answer related outcomes where the edges select the same and the edges begun are related. -/
theorem Simulation.step (hρ : Simulation ρ) (h : ρ (beginEdge s) (beginEdge s')) (hact : nextAction s' = nextAction s) :
    Related ρ (step s) (step s') := by
  unfold Machine.step
  rw [hact]
  split
  · exact hρ.exec h _
  · exact .next h
  · exact .next (hρ.update h fun _ => DecoderState.reset :)

end

/-! ### States that agree in all but the edges to come and the free values -/

theorem SameOutputs.refl (o : Outputs) : SameOutputs o o :=
  ⟨rfl, rfl, fun _ => ⟨rfl, rfl, rfl, rfl⟩, fun _ => ⟨rfl, rfl⟩⟩

/-- Two output registers with both strobes 0 show a consumer nothing. -/
theorem sameOutputs_idle (k k' : Nat) : SameOutputs (idleOutputs k) (idleOutputs k') :=
  ⟨rfl, rfl, fun hfrm => absurd hfrm Bool.noConfusion, fun hpay => absurd hpay Bool.noConfusion⟩

/-- The same decoder state, events and capacity. -/
structure SameRecord (s s' : State) : Prop where
  dec : s'.dec = s.dec
  events : s'.events = s.events
  capacity : s'.capacity = s.capacity

/-- The same decoder state, events and capacity, and outputs a consumer cannot tell apart. -/
structure SameToConsumer (s s' : State) : Prop extends SameRecord s s' where
  out : SameOutputs s.out s'.out

/-- No operation reads the outputs, the events, the edges to come or the counter. -/
theorem simulation_sameToConsumer : Simulation SameToConsumer where
  dec h := ⟨_, _, h.dec⟩
  capacity h := h.capacity
  write g _ h := ⟨⟨congrArg g h.dec, h.events, h.capacity⟩, h.out⟩
  append v h := by
    refine ⟨⟨?_, h.events, h.capacity⟩, ⟨h.out.frmValid, rfl, h.out.frame, fun _ => ⟨rfl, ?_⟩⟩⟩
    · rw [bufAppend_dec, bufAppend_dec, h.dec]
    · rw [bufAppend_out, bufAppend_out, h.dec]
  complete h := by
    refine ⟨⟨rfl, ?_, h.capacity⟩, ⟨rfl, h.out.payValid, fun _ => ?_, h.out.stored⟩⟩
    · rw [complete_events, complete_events, h.events, h.dec]
    · rw [complete_out, complete_out, h.dec]
      exact ⟨rfl, rfl, rfl, rfl⟩
  resetOutputs h := ⟨⟨h.dec, h.events, h.capacity⟩, .refl _⟩

/-- States with the same record begin an edge alike, whatever their outputs were. -/
theorem SameRecord.beginEdge {s s' : State} (h : SameRecord s s') :
    SameToConsumer (beginEdge s) (beginEdge s') :=
  ⟨⟨h.dec, h.events, h.capacity⟩, sameOutputs_idle _ _⟩

/-- The same edge selects the same in states with the same record. -/
theorem SameRecord.nextAction_eq {s s' : State} {e : Edge} {rest rest' : List Edge} (h : SameRecord s s')
    (hin : s.input = e :: rest) (hin' : s'.input = e :: rest') : nextAction s' = nextAction s := by
  rw [nextAction_cons hin, nextAction_cons hin', h.dec]

/-- The same edge, in states with the same record, has outcomes a consumer cannot tell apart, whatever edges follow. -/
theorem SameRecord.step {s s' : State} {e : Edge} {rest rest' : List Edge} (h : SameRecord s s')
    (hin : s.input = e :: rest) (hin' : s'.input = e :: rest') : Related SameToConsumer (step s) (step s') :=
  simulation_sameToConsumer.step h.beginEdge (h.nextAction_eq hin hin')

/-! ### The edges to come, and the reserved bits -/

/-- A run takes its edges from the front of the input, and leaves the capacity alone (R32, R58). -/
theorem run_surroundings {n : Nat} {s t : State} (h : run n s = .next t) :
    t.input = s.input.drop n ∧ t.capacity = s.capacity := by
  induction n generalizing s with
  | zero => cases h; exact ⟨rfl, rfl⟩
  | succ n ih =>
    obtain ⟨u, hstep, hrun⟩ := run_succ_next h
    obtain ⟨hcap, hinput, -⟩ := step_surroundings hstep
    obtain ⟨hinput', hcap'⟩ := ih hrun
    exact ⟨by rw [hinput', hinput, List.drop_tail], hcap'.trans hcap⟩

/-- Settles O39: a run drops its edges, and a step is the same whatever edges follow the next one. -/
theorem everyEdgeIsConsumedOnce : Obligations.EveryEdgeIsConsumedOnce := by
  refine ⟨fun n s t hrun => run_surroundings hrun, fun s e r₁ r₂ t₁ hstep => ?_⟩
  have hsame : SameRecord { s with input := e :: r₁ } { s with input := e :: r₂ } := ⟨rfl, rfl, rfl⟩
  obtain ⟨t₂, hstep', h⟩ := (hsame.step rfl rfl).exists_next hstep
  obtain ⟨-, hinput, -⟩ := step_surroundings hstep'
  exact ⟨t₂, hstep', h.dec, h.events, hinput, h.out⟩

/-- A first byte's step, written out (R101). -/
theorem step_firstByte {s : State} {b : Byte} {rest : List Edge} (hst : s.dec.st = .awaitFirst)
    (hin : s.input = Edge.byte b :: rest) : step s = .next { beginEdge s with
      dec := { s.dec with opcode := opcodeField b, fin := finField b, st := .awaitLen } } := by
  rw [step_byte hin, hst, decodeByte_awaitFirst, exec_first]
  rfl

/-- Settles O13: FIRST writes the two fields read from bits 7 and 3:0, and reads no other bit. -/
theorem reservedBitsReachNoField : Obligations.ReservedBitsReachNoField := by
  intro s b c rest hst hfin hopcode
  have hfin : finField b = finField c := hfin
  have hopcode : opcodeField b = opcodeField c := hopcode
  refine ⟨_, _, step_firstByte hst rfl, step_firstByte hst rfl, ?_, rfl, rfl, rfl, .refl _⟩
  rw [hfin, hopcode]

/-! ### Idle edges -/

/-- What a run shows of states with the same record is the same. -/
theorem SameRecord.observe_eq {s s' : State} (h : SameRecord s s') : observe (.next s) = observe (.next s') := by
  rw [observe, observe, h.dec, h.events]

/-- A run over a list of edges and a run over it without its inactive ones, from states with the same record, show the
same (R68). -/
theorem SameRecord.observe_run {s s' : State} (es : List Edge) (h : SameRecord s s') (hin : s.input = es)
    (hin' : s'.input = es.filter edgeActive) :
    observe (run es.length s) = observe (run (es.filter edgeActive).length s') := by
  induction es generalizing s s' with
  | nil => exact h.observe_eq
  | cons e es ih =>
    cases hactive : edgeActive e with
    | false =>
      rw [List.filter_cons_of_neg (by rw [hactive]; decide)] at hin' ⊢
      rw [List.length_cons, run_succ_of_step (step_of_inactive hin hactive)]
      exact ih ⟨h.dec, h.events, h.capacity⟩ (congrArg List.tail hin) hin'
    | true =>
      rw [List.filter_cons_of_pos hactive] at hin' ⊢
      rw [List.length_cons, List.length_cons]
      obtain ⟨t, t', hstep, hstep', hsame⟩ | ⟨reason, hrefused, hrefused'⟩ := h.step hin hin'
      · obtain ⟨-, hinput, -⟩ := step_surroundings hstep
        obtain ⟨-, hinput', -⟩ := step_surroundings hstep'
        rw [run_succ_of_step hstep, run_succ_of_step hstep']
        exact ih hsame.toSameRecord (hinput.trans (congrArg List.tail hin)) (hinput'.trans (congrArg List.tail hin'))
      · rw [run_succ_of_refused hrefused, run_succ_of_refused hrefused']

/-- Settles O47, by induction on the edges. -/
theorem observationIgnoresIdleEdges : Obligations.ObservationIgnoresIdleEdges := by
  intro s es
  have hsame : SameRecord { s with input := es } { s with input := es.filter edgeActive } := ⟨rfl, rfl, rfl⟩
  exact hsame.observe_run es rfl rfl

/-! ### `opcode` and `fin` -/

/-- What of an event does not depend on `opcode` and `fin`. -/
def DecodedFrame.untagged (f : DecodedFrame) : Bool × Len × List Byte := (f.masked, f.length, f.payload)

/-- Two states that differ in `opcode` and `fin` alone, in those of the event outputs, and in those of the events after
`base`. -/
structure SameButTags (base : List DecodedFrame) (s s' : State) : Prop where
  dec : DifferInTags s.dec s'.dec
  capacity : s'.capacity = s.capacity
  frmValid : s'.out.frmValid = s.out.frmValid
  payValid : s'.out.payValid = s.out.payValid
  frame : s.out.frmValid = true → s'.out.frmMasked = s.out.frmMasked ∧ s'.out.frmLength = s.out.frmLength
  stored : s.out.payValid = true → s'.out.payData = s.out.payData ∧ s'.out.payIndex = s.out.payIndex
  events : ∃ new new', s.events = base ++ new ∧ s'.events = base ++ new' ∧
    new'.map DecodedFrame.untagged = new.map DecodedFrame.untagged

/-- No operation reads `opcode` or `fin`. -/
theorem simulation_sameButTags (base : List DecodedFrame) : Simulation (SameButTags base) where
  dec h := h.dec
  capacity h := h.capacity
  write _ hg h := { h with dec := hg _ _ h.dec }
  append v h := by
    obtain ⟨opcode, fin, hdec⟩ := h.dec
    refine { h with dec := ⟨opcode, fin, ?_⟩, payValid := rfl, stored := fun _ => ⟨rfl, ?_⟩ }
    · rw [bufAppend_dec, bufAppend_dec, hdec]
    · rw [bufAppend_out, bufAppend_out, hdec]
      rfl
  complete {s s'} h := by
    obtain ⟨opcode, fin, hdec⟩ := h.dec
    obtain ⟨new, new', hnew, hnew', heq⟩ := h.events
    refine { h with dec := ⟨_, _, rfl⟩, frmValid := rfl, frame := fun _ => ?_, events := ?_ }
    · rw [complete_out, complete_out, hdec]
      exact ⟨rfl, rfl⟩
    · refine ⟨new ++ [s.dec.event], new' ++ [s'.dec.event], ?_, ?_, ?_⟩
      · rw [complete_events, hnew, List.append_assoc]
      · rw [complete_events, hnew', List.append_assoc]
      · rw [List.map_append, List.map_append, heq, hdec]
        rfl
  resetOutputs h := { h with
    frmValid := rfl
    payValid := rfl
    frame := fun _ => ⟨rfl, rfl⟩
    stored := fun _ => ⟨rfl, rfl⟩ }

/-- Settles O46: the two edges begin alike and select the same, and no operation reads the two fields. -/
theorem opcodeAndFinSteerNothing : Obligations.OpcodeAndFinSteerNothing := by
  rintro s _ t opcode fin rfl hstep
  have hbegin : SameButTags s.events (beginEdge s)
      (beginEdge { s with dec := { s.dec with opcode := opcode, fin := fin } }) :=
    { dec := ⟨opcode, fin, rfl⟩
      capacity := rfl
      frmValid := rfl
      payValid := rfl
      frame := fun _ => ⟨rfl, rfl⟩
      stored := fun _ => ⟨rfl, rfl⟩
      events := ⟨[], [], (List.append_nil _).symm, (List.append_nil _).symm, rfl⟩ }
  obtain ⟨t', hstep', h⟩ := ((simulation_sameButTags s.events).step hbegin rfl).exists_next hstep
  obtain ⟨-, hinput, -⟩ := step_surroundings hstep
  obtain ⟨-, hinput', -⟩ := step_surroundings hstep'
  obtain ⟨opcode', fin', hdec⟩ := h.dec
  exact ⟨t', hstep', by rw [hdec], h.frmValid, h.payValid, h.frame, h.stored, hinput'.trans hinput.symm, h.capacity,
    h.events⟩

end Sys2Proof.Machine
end
